-- ==== Sys2Proof/Word.lean ====
section
/-! DEFINITION. The words of the hardware: the byte of OUT and of ACC, and the 9-bit command word (00_scope.md R9, 30_encoding.md R80). -/

namespace Sys2Proof

/-- A byte: ACC, a character, an element of OUT (00_scope.md R8: `ACC_W = 8`, `CHAR_W = 8`). -/
abbrev Byte := BitVec 8

/-- A command word `cmd[8:0]` (30_encoding.md R80). -/
abbrev CommandWord := BitVec 9

end Sys2Proof
end

