-- ==== Sys2Proof/Config.lean ====
section
/-! DEFINITION. The parameters and constants of 00_scope.md R8: those the spec fixes have a value, the two it leaves OPEN have none. -/

namespace Sys2Proof.Config

/-- `CODE_0`: the character '0'. PRESUMED (general knowledge, D3 and G1), unsafe: a differently coded character set
would make other words bits; log 1. -/
abbrev code0 : Byte := 0x30#8

/-- `CODE_1`: the character '1'. PRESUMED (general knowledge, D3 and G1), unsafe; log 1. -/
abbrev code1 : Byte := 0x31#8

/-- `COUNT_W`, OPEN in R8: the width of the ports `st_bits` and `st_bytes`. No value, so no proof can use one; safe; log 3. -/
opaque countW : Nat

/-- `CAUSE_W`, OPEN in R8: the width of the ports `out_cause` and `st_cause`. No value; safe; log 3. -/
opaque causeW : Nat

end Sys2Proof.Config
end

