-- ==== Sys2Proof/Syntax.lean ====
section
/-! DEFINITION. The command set (30_encoding.md R84). The seven SKIP rows of the opcode table are mask classes of ONE command (R85),
so they share one constructor. -/

namespace Sys2Proof

/-- A command (R84). The character that SKIP and END carry is kept, although R86 gives it no effect, so that no bit of a
word is dropped by decoding. -/
inductive Instr where
  /-- BIT0, the character '0' (40_bit_commands.md R110). -/
  | bit0
  /-- BIT1, the character '1' (R111). -/
  | bit1
  /-- SKIP, any other character `c` (R112). -/
  | skip (c : Byte)
  /-- END, the source is exhausted; `c` is the ignored field of the word (41_end_flush.md R130). -/
  | endStream (c : Byte)
  deriving DecidableEq, Repr

/-- The mnemonics of the opcode table (R84). -/
inductive Mnemonic where
  | BIT0 | BIT1 | SKIP | END
  deriving DecidableEq, Repr

end Sys2Proof
end

