-- ==== Sys2Proof/WellFormed.lean ====
section
/-! DEFINITION. Which commands and which input streams are well formed (30_encoding.md R84, 20_memory.md R51). -/

namespace Sys2Proof

/-- A command some word stands for: the character of SKIP is neither '0' nor '1' (R84); every END is a command (R87). -/
def wellFormed : Instr → Bool
  | .bit0 => true
  | .bit1 => true
  | .skip c => c != Config.code0 && c != Config.code1
  | .endStream _ => true

/-- The commands of a well-formed IN: zero or more characters followed by exactly one END (R51). -/
def wellFormedStream : List Instr → Bool
  | [] => false
  | .endStream _ :: rest => rest.isEmpty
  | i :: rest => wellFormed i && wellFormedStream rest

end Sys2Proof
end

