-- ==== Sys2Proof/Decode.lean ====
section
/-! DEFINITION. Decoding of a command word (30_encoding.md R83), the mask and match classes of R85, the encoder (R80, R84) and the
text form of a command stream (R93, R94). -/

namespace Sys2Proof

/-- Field `e`, `cmd[8]` (R80). -/
def fieldE (w : CommandWord) : Bool := w.getLsbD 8

/-- Field `c`, `cmd[7:0]` (R80). -/
def fieldC (w : CommandWord) : Byte := w.setWidth 8

/-- The decoder of R83, total: no word is illegal (R87), so it refuses none. -/
def decode (w : CommandWord) : Instr :=
  if fieldE w then .endStream (fieldC w)
  else if fieldC w = Config.code0 then .bit0
  else if fieldC w = Config.code1 then .bit1
  else .skip (fieldC w)

/-- The word `e :: c` of format C (R80). -/
def formatC (e : Bool) (c : Byte) : CommandWord := BitVec.ofBool e ++ c

/-- The word of a command (R84, R93). -/
def encode : Instr → CommandWord
  | .bit0 => formatC false Config.code0
  | .bit1 => formatC false Config.code1
  | .skip c => formatC false c
  | .endStream c => formatC true c

/-- The mnemonic of a command (R84). -/
def mnemonic : Instr → Mnemonic
  | .bit0 => .BIT0
  | .bit1 => .BIT1
  | .skip _ => .SKIP
  | .endStream _ => .END

/-- One row of the opcode table: a word `w` is in the row when `w AND mask = pattern` (R85). -/
structure OpcodeRow where
  mnemonic : Mnemonic
  mask : CommandWord
  pattern : CommandWord
  deriving DecidableEq, Repr

/-- Membership of a word in a class (R85). -/
def inRow (w : CommandWord) (r : OpcodeRow) : Bool := w &&& r.mask == r.pattern

/-- The ten classes of R85, in the order of spec/opcode_table.json. -/
def opcodeTable : List OpcodeRow :=
  [ ⟨.BIT0, 0x1FF, 0x030⟩,
    ⟨.BIT1, 0x1FF, 0x031⟩,
    ⟨.SKIP, 0x180, 0x080⟩,
    ⟨.SKIP, 0x1C0, 0x040⟩,
    ⟨.SKIP, 0x1E0, 0x000⟩,
    ⟨.SKIP, 0x1F0, 0x020⟩,
    ⟨.SKIP, 0x1F8, 0x038⟩,
    ⟨.SKIP, 0x1FC, 0x034⟩,
    ⟨.SKIP, 0x1FE, 0x032⟩,
    ⟨.END, 0x100, 0x100⟩ ]

/-- The mnemonics of every class a word is in. -/
def classesOf (w : CommandWord) : List Mnemonic :=
  (opcodeTable.filter (inRow w)).map (·.mnemonic)

/-- The command word numbered as the opcode table numbers its bits. Every command is 9 bits (R89), so a number that does
not fit in 9 bits is no command word; log 13. -/
def tableWord (_nbits w : Nat) : Option CommandWord :=
  if w < 512 then some (BitVec.ofNat 9 w) else none

/-- What the decoder reads from the table's word; log 13. -/
def decodeTableWord (nbits w : Nat) : Option Instr := (tableWord nbits w).map decode

/-- The canonical END word (R84). -/
def endWord : CommandWord := 0x100#9

/-- The words a source sends for the characters `s`: each becomes `0 :: c` (R94). -/
def charWords (s : List Byte) : List CommandWord := s.map (formatC false)

/-- The whole stream of the characters `s`, END last (R93, R94). -/
def streamWords (s : List Byte) : List CommandWord := charWords s ++ [endWord]

/-- The 8-bit values handed over for one source character: its UTF-8 bytes, which R82 allows; log 18. -/
def charBytes (ch : Char) : List Byte := (String.utf8EncodeChar ch).map UInt8.toBitVec

/-- The string form of a program (R93): the characters, then END at the closing quote. -/
def stringForm (cs : List Char) : List CommandWord := streamWords (cs.flatMap charBytes)

end Sys2Proof
end

