-- ==== Sys2Proof/Machine/State.lean ====
section
/-! DEFINITION. The state: the registers of the block (10_state.md sections 1 to 3) and, apart from them, what the agents outside the
block hold (the source's IN and POS, the sink's OUT and answers, the host's resets). 10_state.md R37 says that the latter are
no state of the block; they stand in State because a step is a function of State alone (log 4). The state R37 leaves to the block is
Block, and its step with the rest as parameters is blockStep in Machine/BlockStep.lean. -/

namespace Sys2Proof.Machine

/-- PHASE (10_state.md R28). The reserved code `0b11` is never produced and has no constructor (93_implementation_defined.md
U5, log 16). -/
inductive Phase where
  /-- A conversion is open: commands are accepted. -/
  | run
  /-- END has completed. -/
  | done
  /-- An emission failed. -/
  | error
  deriving DecidableEq, Repr

/-- ERRCODE (R29, 60_exceptions.md R160). Codes 2 and 3 are never produced and have no constructor (U6, log 16). -/
inductive ErrCode where
  | none
  | ioerr
  deriving DecidableEq, Repr

/-- The sink's cause value, which the block stores and never interprets (R29, U11): an opaque token. DESIGN CHOICE, safe: a
natural number, so a cause of any width fits; log 2. How it shows on the port `st_cause`: log 21. -/
structure Cause where
  token : Nat
  deriving DecidableEq, Repr

/-- The registers of the block, each one named by 10_state.md. -/
structure Block where
  /-- ACC (R20). -/
  acc : Byte
  /-- CNT (R21): 3 bits, the value 8 is never stored. -/
  cnt : BitVec 3
  /-- BITS (R24): unbounded. -/
  bits : Nat
  /-- NBYTES (R25): unbounded. -/
  nbytes : Nat
  /-- PADDED (R26). -/
  padded : Bool
  /-- PADN (R27). -/
  padn : BitVec 3
  /-- PHASE (R28). -/
  phase : Phase
  /-- ERRCODE (R29). -/
  errcode : ErrCode
  /-- CAUSE (R29). -/
  cause : Cause
  deriving DecidableEq, Repr

/-- The sink's answer to one emission (20_memory.md R58), a free input: no rule decides it. -/
inductive SinkAnswer where
  /-- The byte is appended to OUT. -/
  | ok
  /-- The byte is refused with cause `c`. `landed` says whether it is in OUT all the same, which the spec leaves open (U3): it is
  wholly there or absent. Free, safe; log 6. -/
  | fail (c : Cause) (landed : Bool)
  deriving DecidableEq, Repr

/-- The machine and its environment. -/
structure State where
  /-- The block's registers. -/
  block : Block
  /-- POS (R30): a ghost, the commands accepted since reset; log 20. -/
  pos : Nat
  /-- IN (20_memory.md R51): the commands the source has still to deliver, next first. Empty: it offers none. -/
  input : List CommandWord
  /-- OUT (R52): the bytes the sink holds; the list index is the address. -/
  out : List Byte
  /-- The sink's coming answers, next first. Empty: it has not answered yet. Free input, safe; log 5. -/
  answers : List SinkAnswer
  /-- Whether the host applies reset (70_reset_and_hazards.md R190), one entry a step. Past the end it does not. Free input; log 7. -/
  rst : List Bool
  deriving DecidableEq, Repr

/-- The reasons a step stops with a fault: NONE. The one exception of the block, IOError, is TAKEN (60_exceptions.md R162), and
R166 says that nothing else is an exception, so this closed type has no constructor and no step raises one (safe). -/
inductive Fault where
  deriving DecidableEq, Repr

/-- The reasons a step refuses. -/
inductive Refusal where
  /-- Would be raised by an arm of `exec` for a command without a meaning; no arm raises it, since every command has one. Safe. -/
  | notModelled (mnemonic : String)
  deriving DecidableEq, Repr

/-- What RESET leaves in the block (10_state.md R35). -/
def blockReset : Block where
  acc := 0x00
  cnt := 0
  bits := 0
  nbytes := 0
  padded := false
  padn := 0
  phase := .run
  errcode := .none
  cause := ⟨0⟩

/-- The machine right after reset (R35): every register at the spec's value, POS 0. Around it nothing has happened yet: no
command offered, OUT empty (as R66 has the host make it), no answer and no reset pending. DESIGN CHOICE for these four; log 12. -/
def State.reset : State where
  block := blockReset
  pos := 0
  input := []
  out := []
  answers := []
  rst := []

end Sys2Proof.Machine
end

