-- ==== Sys2Proof/Machine/Operands.lean ====
section
/-! DEFINITION. The operands of the commands and the data path of ACC (30_encoding.md R86, 10_state.md R23). -/

namespace Sys2Proof.Machine

/-- The bit value of a BIT command, `b = c[0]`, as one bit (R86). -/
def bitOperand (c : Byte) : Bool := c.getLsbD 0

/-- `zext_8(b)` (00_scope.md R10). -/
def zext8 (b : Bool) : Byte := (BitVec.ofBool b).setWidth 8

/-- `CLEAR`, the parallel load of zero (R23). -/
def accClear : Byte := 0x00

/-- `SHL1(b)`: `(ACC << 1)[7:0] | zext_8(b)` (R23). -/
def accShl1 (acc : Byte) (b : Bool) : Byte := acc <<< 1 ||| zext8 b

/-- `SHLN(k)`: `(ACC << k)[7:0]` (R23). -/
def accShln (acc : Byte) (k : Nat) : Byte := acc <<< k

/-- `n = zext_4(CNT) + 1`, the 4-bit intermediate that reaches 8 (40_bit_commands.md R110). -/
def countNext (cnt : BitVec 3) : BitVec 4 := cnt.setWidth 4 + 1

/-- `k = 8 - zext_4(CNT)`, the number of padding bits (41_end_flush.md R130); END uses it with CNT from 1 to 7 (R135). -/
def padCount (cnt : BitVec 3) : BitVec 4 := 8 - cnt.setWidth 4

end Sys2Proof.Machine
end

