-- ==== Sys2Proof/Machine/Flags.lean ====
section
/-! DEFINITION. The one flag PADDED and the padding count beside it (10_state.md R26, R27, R39). Only END and reset write them. -/

namespace Sys2Proof.Machine

/-- END with nothing held: no padding (41_end_flush.md R130). -/
def recordNoPadding (b : Block) : Block := { b with padded := false, padn := 0 }

/-- END that flushed `8 - CNT` padding bits (R130): `PADDED <- 1`, `PADN <- k[2:0]`. -/
def recordPadding (b : Block) : Block := { b with padded := true, padn := (padCount b.cnt).setWidth 3 }

end Sys2Proof.Machine
end

