-- ==== Sys2Proof/Machine/Ops.lean ====
section
/-! DEFINITION. The operations all commands share: taking a command from IN, `Emit`, taking the exception IOError, and RESET
(20_memory.md R51, R58; 60_exceptions.md R162; 70_reset_and_hazards.md R190, R196). -/

namespace Sys2Proof.Machine

/-- The outcome type of this machine. -/
abbrev Outcome := Host.Outcome State Fault Refusal

/-- The command is consumed: POS advances by one and the source's next element comes up (R51). -/
def takeCommand (s : State) : State := { s with pos := s.pos + 1, input := s.input.tail }

/-- What the sink says to one offer. -/
inductive EmitResult where
  /-- It has not answered: no step happens and the command waits (R200 K-e, R205); log 5. -/
  | waiting
  | ok (s : State)
  | fail (c : Cause) (s : State)
  deriving DecidableEq, Repr

/-- `Emit(v)` (R58). On `ok` the byte is appended; on `fail(c)` OUT keeps every earlier byte, and the refused byte is wholly in OUT or
not in it, as the answer says (U3). NBYTES is the caller's to write. -/
def emit (v : Byte) (s : State) : EmitResult :=
  match s.answers with
  | [] => .waiting
  | .ok :: rest => .ok { s with out := s.out ++ [v], answers := rest }
  | .fail c landed :: rest => .fail c { s with out := s.out ++ (if landed then [v] else []), answers := rest }

/-- TAKING THE EXCEPTION `raise IOError(c)` (R162): PHASE, ERRCODE and CAUSE are written and no data register is. There is no
saved pc, no vector and no return (R162, R165): RESET is the only way out. -/
def raiseIOError (c : Cause) (b : Block) : Block := { b with phase := .error, errcode := .ioerr, cause := c }

/-- What the rule of a command asks for, from the registers alone. -/
inductive Plan where
  /-- No emission: the registers become `b`. -/
  | settle (b : Block)
  /-- Offer the byte `v`; if the sink answers `ok` the registers become `b`. -/
  | offer (v : Byte) (b : Block)
  deriving DecidableEq, Repr

/-- Carry out the rule of a command. It is accepted in phase RUN only (R196): in DONE and ERROR it waits at the source and
nothing changes (U13, log 8). All writes of an accepted command, its emission and the sink's answer are one step (R15). -/
def perform (p : Plan) (s : State) : Outcome :=
  match s.block.phase, p with
  | .done, _ => .next s
  | .error, _ => .next s
  | .run, .settle b => .next (takeCommand { s with block := b })
  | .run, .offer v b =>
    match emit v s with
    | .waiting => .next s
    | .ok s' => .next (takeCommand { s' with block := b })
    | .fail c s' => .next (takeCommand { s' with block := raiseIOError c s.block })

/-- RESET (R190): every register of the block at its reset value, POS 0. IN, OUT and the sink are untouched. -/
def applyReset (s : State) : State := { s with block := blockReset, pos := 0 }

/-- Whether the host applies reset at this step (R190, U15; log 7). -/
def hostResets (s : State) : Bool := s.rst.headD false

/-- The host's choice for this step is used up. -/
def hostTurn (s : State) : State := { s with rst := s.rst.tail }

/-- `MemRead(POS, 1)` (00_scope.md R10): the command the source presents, if it presents one. -/
def presented (s : State) : Option CommandWord := s.input.head?

/-- The source presents `w` next and the host does not reset: what `State.withFetchWord` needs; log 13. -/
def present (s : State) (w : CommandWord) : State :=
  { s with input := w :: s.input.tail, rst := if hostResets s then false :: s.rst.tail else s.rst }

/-- The model's read of one byte of OUT; past the end there is none. -/
def readOut (s : State) (a : Nat) : Option Byte := s.out[a]?

/-- OUT as addressed bytes (20_memory.md R52, R60): index 0 holds the first. -/
def outCells (s : State) : List Host.Cell := s.out.zipIdx.map fun p => (p.2, p.1)

/-- The start of a conversion (R197 steps 2 to 5, R66): OUT made empty, the block reset, and a source that will send `ws` to a sink
that will answer `as`. -/
def beginConversion (ws : List CommandWord) (as : List SinkAnswer) (s : State) : State :=
  { applyReset s with input := ws, out := [], answers := as, rst := [] }

end Sys2Proof.Machine
end

