-- ==== Sys2Proof/Machine/BitCommands.lean ====
section
/-! DEFINITION. The character commands BIT0, BIT1 and SKIP (40_bit_commands.md). -/

namespace Sys2Proof.Machine

/-- The rule BIT0 and BIT1 share, for the bit `x` (R110, R111). -/
def bitPlan (x : Bool) (b : Block) : Plan :=
  let a := accShl1 b.acc x
  let n := countNext b.cnt
  if n ≠ 8 then
    .settle { b with acc := a, cnt := n.setWidth 3, bits := b.bits + 1 }
  else
    .offer a { b with acc := accClear, cnt := 0, bits := b.bits + 1, nbytes := b.nbytes + 1 }

/-- The rule of SKIP (R112): no register changes. -/
def skipPlan (b : Block) : Plan := .settle b

/-- BIT0: take the meaningful bit 0 (R110). -/
def execBit0 (s : State) : Outcome := perform (bitPlan (bitOperand Config.code0) s.block) s

/-- BIT1: take the meaningful bit 1 (R111). -/
def execBit1 (s : State) : Outcome := perform (bitPlan (bitOperand Config.code1) s.block) s

/-- SKIP: a character that is not a bit; `c` has no effect (R112). -/
def execSkip (_c : Byte) (s : State) : Outcome := perform (skipPlan s.block) s

end Sys2Proof.Machine
end

