-- ==== Sys2Proof/Machine/EndCommand.lean ====
section
/-! DEFINITION. The command END and the flush (41_end_flush.md). -/

namespace Sys2Proof.Machine

/-- The rule of END (R130). With nothing held there is no emission and ACC is not written (log 15); otherwise the held bits move to the
top, zeros fill the low-order positions, and the padding is recorded. BITS is never written. -/
def endPlan (b : Block) : Plan :=
  if b.cnt = 0 then
    .settle { recordNoPadding b with phase := .done }
  else
    .offer (accShln b.acc (padCount b.cnt).toNat)
      { recordPadding b with nbytes := b.nbytes + 1, acc := accClear, cnt := 0, phase := .done }

/-- END: the source is exhausted; `c` is ignored (R86, R130). -/
def execEndStream (_c : Byte) (s : State) : Outcome := perform (endPlan s.block) s

end Sys2Proof.Machine
end

