-- ==== Sys2Proof/Machine/Step.lean ====
section
/-! DEFINITION. One step of the untimed machine (70_reset_and_hazards.md R203): a RESET, or the command the source presents. -/

namespace Sys2Proof.Machine

/-- One step. Reset wins over a command and is a step of its own (R191). With no command presented nothing changes (60_exceptions.md
R176; log 9). -/
def step (s : State) : Host.Outcome State Fault Refusal :=
  if hostResets s then .next (applyReset (hostTurn s))
  else match presented s with
    | none => .next (hostTurn s)
    | some w => exec (decode w) (hostTurn s)

/-- `s` with the table's word presented by the source as the next command and no reset in its way; a number that is no command word
changes nothing; log 13. -/
def State.withFetchWord (s : State) (nbits w : Nat) : State :=
  match tableWord nbits w with
  | some word => present s word
  | none => s

end Sys2Proof.Machine
end

