-- ==== Sys2Proof/Machine/BlockStep.lean ====
section
/-! DEFINITION. The step of the block alone (10_state.md R37): its state is Block and nothing else, and the command, the sink's answer and
the host's reset are parameters of its step. `step` is this step with the environment around it held in State (log 4). -/

namespace Sys2Proof.Machine

/-- The rule of a command, as a plan. -/
def commandPlan : Instr → Block → Plan
  | .bit0, b => bitPlan false b
  | .bit1, b => bitPlan true b
  | .skip _, b => skipPlan b
  | .endStream _, b => endPlan b

/-- What the block hears of the sink's answer (20_memory.md R58). Whether a refused byte landed it does not hear (U3). -/
inductive Verdict where
  | ok
  | fail (c : Cause)
  deriving DecidableEq, Repr

/-- The part of an answer that the block hears. -/
def SinkAnswer.verdict : SinkAnswer → Verdict
  | .ok => .ok
  | .fail c _ => .fail c

/-- Whether the byte offered is in OUT after this answer (R58, U3). -/
def SinkAnswer.lands : SinkAnswer → Bool
  | .ok => true
  | .fail _ landed => landed

/-- What one step of the block gives: its registers, whether the command was taken, and the byte it offered. -/
structure Turn where
  block : Block
  taken : Bool
  offered : Option Byte
  deriving DecidableEq, Repr

/-- The rule of a command carried out with an answer, if there is one: an offer without an answer waits (R200 K-e, R205; log 5). -/
def planTurn (p : Plan) (answer : Option Verdict) (b : Block) : Turn :=
  match p, answer with
  | .settle b', _ => ⟨b', true, none⟩
  | .offer v _, none => ⟨b, false, some v⟩
  | .offer v b', some .ok => ⟨b', true, some v⟩
  | .offer v _, some (.fail c) => ⟨raiseIOError c b, true, some v⟩

/-- One step of the block (R37): reset wins (R191), a command is taken in RUN only (R196), and with neither the registers hold (R176). -/
def blockStep (reset : Bool) (cmd : Option CommandWord) (answer : Option Verdict) (b : Block) : Turn :=
  if reset then ⟨blockReset, false, none⟩
  else match cmd, b.phase with
    | none, _ => ⟨b, false, none⟩
    | some w, .run => planTurn (commandPlan (decode w) b) answer b
    | some _, .done => ⟨b, false, none⟩
    | some _, .error => ⟨b, false, none⟩

end Sys2Proof.Machine
end

