-- ==== Sys2Proof/Machine/Ports.lean ====
section
/-! DEFINITION. The binding of the untimed machine to clocked ports (30_encoding.md R90 to R92, 70_reset_and_hazards.md R204 to R206):
what the output ports show in a cycle, and what the registers become at its clock edge. No rule about values depends on it (00_scope.md
R7); an obligation ties one cycle to one `step` (R205). -/

namespace Sys2Proof.Machine

/-- The input ports of R90, as they stand in one cycle (`clk` is the edge itself). -/
structure Inputs where
  rst : Bool
  cmdValid : Bool
  cmdEnd : Bool
  cmdChar : Byte
  outReady : Bool
  outErr : Bool
  outCause : BitVec Config.causeW
  deriving DecidableEq, Repr

/-- The output ports of R90. -/
structure Outputs where
  cmdReady : Bool
  outValid : Bool
  outByte : Byte
  stPhase : BitVec 2
  stPadded : Bool
  stPadn : BitVec 3
  stBits : BitVec Config.countW
  stBytes : BitVec Config.countW
  stErrcode : BitVec 2
  stCause : BitVec Config.causeW
  deriving DecidableEq, Repr

/-- The code of PHASE on its port (10_state.md R28). -/
def phaseCode : Phase → BitVec 2
  | .run => 0b00
  | .done => 0b01
  | .error => 0b10

/-- Reading `st_phase`: the reserved `0b11` is refused (R88, U5). -/
def phaseOfCode (v : BitVec 2) : Option Phase :=
  if v = 0b00 then some .run
  else if v = 0b01 then some .done
  else if v = 0b10 then some .error
  else none

/-- The code of ERRCODE on its port (R29). -/
def errCode : ErrCode → BitVec 2
  | .none => 0
  | .ioerr => 1

/-- Reading `st_errcode`: the reserved 2 and 3 are refused (R88, U6). -/
def errOfCode (v : BitVec 2) : Option ErrCode :=
  if v = 0 then some .none
  else if v = 1 then some .ioerr
  else none

/-- `cmd_end :: cmd_char` (R90, R204). -/
def portWord (x : Inputs) : CommandWord := formatC x.cmdEnd x.cmdChar

/-- `d = decode(cmd_end :: cmd_char)` (R204). -/
def portCommand (x : Inputs) : Instr := decode (portWord x)

/-- `completes` (R204). -/
def completes (b : Block) (x : Inputs) : Bool :=
  (mnemonic (portCommand x) == .BIT0 || mnemonic (portCommand x) == .BIT1) && b.cnt == 7

/-- `flushes` (R204). -/
def flushes (b : Block) (x : Inputs) : Bool := mnemonic (portCommand x) == .END && b.cnt != 0

/-- `need_emit` (R204). -/
def needEmit (b : Block) (x : Inputs) : Bool :=
  b.phase == .run && x.cmdValid && (completes b x || flushes b x)

/-- `out_valid` (R204). -/
def outValid (b : Block) (x : Inputs) : Bool := !x.rst && needEmit b x

/-- `out_byte` (R204). It has a specified value only while `out_valid` is 1 (R91, U7): `noise` is a free value, whatever the wires
carry otherwise; log 11. -/
def outByte (noise : Byte) (b : Block) (x : Inputs) : Byte :=
  if !outValid b x then noise
  else if completes b x then b.acc <<< 1 ||| (BitVec.ofBool (x.cmdChar.getLsbD 0)).setWidth 8
  else b.acc <<< (8 - b.cnt.toNat)

/-- `cmd_ready` (R204). -/
def cmdReady (b : Block) (x : Inputs) : Bool :=
  !x.rst && b.phase == .run && (!needEmit b x || x.outReady)

/-- `fire` (R204). -/
def fire (b : Block) (x : Inputs) : Bool := x.cmdValid && cmdReady b x

/-- What the output ports show (R90, R204); a count past its width shows its low bits (R92). DESIGN CHOICE, unsafe: a cause whose token
does not fit in CAUSE_W bits shows its low bits on `st_cause`, which the spec does not say; log 21. -/
def outputs (noise : Byte) (b : Block) (x : Inputs) : Outputs where
  cmdReady := cmdReady b x
  outValid := outValid b x
  outByte := outByte noise b x
  stPhase := phaseCode b.phase
  stPadded := b.padded
  stPadn := b.padn
  stBits := BitVec.ofNat Config.countW b.bits
  stBytes := BitVec.ofNat Config.countW b.nbytes
  stErrcode := errCode b.errcode
  stCause := BitVec.ofNat Config.causeW b.cause.token

/-- The value of `out_cause` as the block stores it (R29). -/
def portCause (x : Inputs) : Cause := ⟨x.outCause.toNat⟩

/-- The rule of a command with `Emit` answered on the ports: `ok` when `out_err = 0`, `fail(out_cause)` when it is 1 (R204). -/
def settlePlan (p : Plan) (x : Inputs) (b : Block) : Block :=
  match p with
  | .settle b' => b'
  | .offer _ b' => if x.outErr then raiseIOError (portCause x) b else b'

/-- The registers after the rising edge of `clk` (R204). -/
def clockEdge (b : Block) (x : Inputs) : Block :=
  if x.rst then blockReset
  else if fire b x then
    match portCommand x with
    | .bit0 => settlePlan (bitPlan false b) x b
    | .bit1 => settlePlan (bitPlan true b) x b
    | .skip _ => settlePlan (skipPlan b) x b
    | .endStream _ => settlePlan (endPlan b) x b
  else b

/-- The sink's answer as the ports carry it in a cycle: none while `out_ready` is 0 (R200 K-e). Whether a refused byte landed is on no
port (U3): `landed` is free. -/
def portAnswers (landed : Bool) (x : Inputs) : List SinkAnswer :=
  if x.outReady then [if x.outErr then .fail (portCause x) landed else .ok] else []

/-- The environment of the untimed machine that the inputs of one cycle describe, around the state `s` (R205). -/
def cycleState (landed : Bool) (x : Inputs) (s : State) : State :=
  { s with input := if x.cmdValid then [portWord x] else []
           answers := portAnswers landed x
           rst := [x.rst] }

end Sys2Proof.Machine
end

