-- ==== Sys2Proof/Machine/Pack.lean ====
section
/-! DEFINITION. The whole conversion as a function of the input, `pack` (42_whole_conversion.md R140), written apart from the step
machine, and the bits that a byte and a partly filled ACC stand for (10_state.md R20, 20_memory.md R55, R56). The group size is the constant `GROUP = 8` of 00_scope.md R8, no parameter. -/

namespace Sys2Proof.Machine

/-- `isbit(c)` (00_scope.md R10). -/
def isBit (c : Byte) : Bool := c == Config.code0 || c == Config.code1

/-- `bitval(c)` (R10). -/
def bitVal (c : Byte) : Bool := c == Config.code1

/-- `bitsOf(s)`: the meaningful bits, in order (R140). -/
def bitsOf (s : List Byte) : List Bool := (s.filter isBit).map bitVal

/-- The number whose binary digits, most significant first, are `g`: the formula of R20 and of `byte(g)` in R140. -/
def bitsValue (g : List Bool) : Nat := g.foldl (fun v b => 2 * v + b.toNat) 0

/-- `byte(g)`, `g` a group of 8 bits (R140). -/
def byteOf (g : List Bool) : Byte := BitVec.ofNat 8 (bitsValue g)

/-- `last(g)`: `g` with zeros added to make 8 bits (R140). -/
def lastByte (g : List Bool) : Byte := byteOf (g ++ List.replicate (8 - g.length) false)

/-- The full groups of `chunks(m)` (R140). -/
def fullGroups (m : List Bool) : List (List Bool) :=
  (List.range (m.length / 8)).map fun k => (m.drop (8 * k)).take 8

/-- The short group of `chunks(m)`, empty if there is none (R140). -/
def shortGroup (m : List Bool) : List Bool := m.drop (8 * (m.length / 8))

/-- The four results of `pack` (R140). -/
structure Packed where
  bytes : List Byte
  nbits : Nat
  padded : Bool
  padn : Nat
  deriving DecidableEq, Repr

/-- `pack(s)` (R140). -/
def pack (s : List Byte) : Packed :=
  let m := bitsOf s
  let r := m.length % 8
  { bytes := (fullGroups m).map byteOf ++ (if r = 0 then [] else [lastByte (shortGroup m)])
    nbits := m.length
    padded := r != 0
    padn := if r = 0 then 0 else 8 - r }

/-- The low `n` bits of a byte, most significant first: the held bits of an ACC that holds `n` (R20). -/
def lowBits (a : Byte) (n : Nat) : List Bool := (List.range n).map fun i => a.getLsbD (n - 1 - i)

/-- The bits of the bytes of OUT in order, most significant first (20_memory.md R53, R54). -/
def streamBits (out : List Byte) : List Bool := out.flatMap fun a => lowBits a 8

/-- Bit `i` of the stream, recovered from the bytes: bit `7 - (i mod 8)` of `bytes[floor(i/8)]` (R147). -/
def recoverBit (bytes : List Byte) (i : Nat) : Option Bool :=
  bytes[i / 8]?.map fun a => a.getLsbD (7 - i % 8)

end Sys2Proof.Machine
end

