-- ==== Sys2Proof/Safety.lean ====
section
/-! DEFINITION. What a good state and a safe run are: the invariants of 10_state.md R32, R33 and R34, a sink that never fails, a source that keeps its
command. -/

namespace Sys2Proof.Machine

/-- The held bits: the CNT low bits of ACC, oldest first (10_state.md R20). -/
def heldBits (b : Block) : List Bool := lowBits b.acc b.cnt.toNat

/-- The meaningful bits in OUT and in ACC together, in arrival order. -/
def bitsInside (s : State) : List Bool := streamBits s.out ++ heldBits s.block

/-- I-b, I-c and I-d of R32: the counters agree and ACC holds no bit above position CNT. -/
abbrev HeldInv (b : Block) : Prop :=
  b.cnt.toNat = b.bits % 8 ∧ b.nbytes = b.bits / 8 ∧ b.acc.toNat < 2 ^ b.cnt.toNat

/-- R32, the part that is about registers: I-b to I-d and I-f. -/
abbrev RunInv (b : Block) : Prop :=
  HeldInv b ∧ b.padded = false ∧ b.padn = 0 ∧ b.errcode = .none ∧ b.cause = ⟨0⟩

/-- R33 J-a to J-e. -/
abbrev DoneInv (b : Block) : Prop :=
  b.acc = 0 ∧ b.cnt = 0 ∧ b.nbytes = (b.bits + 7) / 8 ∧ (b.padded = true ↔ b.bits % 8 ≠ 0) ∧
    b.padn.toNat = (8 - b.bits % 8) % 8 ∧ b.errcode = .none ∧ b.cause = ⟨0⟩

/-- R34: ERRCODE is 1, and the registers are those of phase RUN; bits are held (R148: a failing command emits). -/
abbrev ErrorInv (b : Block) : Prop :=
  b.errcode = .ioerr ∧ HeldInv b ∧ b.cnt ≠ 0 ∧ b.padded = false ∧ b.padn = 0

/-- The invariant of the block at every rest point, by phase. -/
abbrev BlockInv (b : Block) : Prop :=
  (b.phase = .run → RunInv b) ∧ (b.phase = .done → DoneInv b) ∧ (b.phase = .error → ErrorInv b)

/-- A sink that answers `ok` to everything it still answers. -/
abbrev SinkNeverFails (s : State) : Prop := ∀ a ∈ s.answers, a = .ok

/-- The source's duty S-d on the ports (70_reset_and_hazards.md R199): a command that was presented and not accepted in the cycle `x` is
presented again, unchanged, in the next cycle `y`. -/
abbrev SourceKeepsCommand (b : Block) (x y : Inputs) : Prop :=
  x.cmdValid = true → fire b x = false →
    y.cmdValid = true ∧ y.cmdEnd = x.cmdEnd ∧ y.cmdChar = x.cmdChar

/-- A safe state: no IOError has ended the conversion. -/
abbrev Safe (s : State) : Prop := s.block.phase ≠ .error

end Sys2Proof.Machine
end

