-- ==== Sys2Proof/Certificates/Slice0/Obligations.lean ====
section
/-! DEFINITION. The statements for the provers. Each docstring names the rule of spec/ it formalises. -/

open Sys2Proof Sys2Proof.Machine

/-! ### Words and commands -/

/-- 95_test_vectors.md section 2.3, decode checks, and the words of 30_encoding.md R95. -/
def Obligations.SpecWordsDecode : Prop :=
  decode 0x030 = .bit0 ∧ decode 0x031 = .bit1 ∧ decode 0x130 = .endStream 0x30 ∧ decode 0x131 = .endStream 0x31 ∧
  decode 0x02F = .skip 0x2F ∧ decode 0x032 = .skip 0x32 ∧ decode 0x0B0 = .skip 0xB0 ∧ decode 0x1FF = .endStream 0xFF ∧
  decode 0x100 = .endStream 0x00 ∧ decode 0x00A = .skip 0x0A ∧ decode 0x020 = .skip 0x20

/-- R84 and R85: the words of each mnemonic, their number, and that the ten classes partition the 512 words. -/
def Obligations.CommandSetPartitionsTheWords : Prop :=
  (∀ w : CommandWord, classesOf w = [mnemonic (decode w)]) ∧
  (∀ w : CommandWord,
    (mnemonic (decode w) = .BIT0 ↔ w = 0x030) ∧ (mnemonic (decode w) = .BIT1 ↔ w = 0x031) ∧
    (mnemonic (decode w) = .SKIP ↔ w.toNat ≤ 0x02F ∨ (0x032 ≤ w.toNat ∧ w.toNat ≤ 0x0FF)) ∧
    (mnemonic (decode w) = .END ↔ 0x100 ≤ w.toNat)) ∧
  ((List.range 512).countP fun n => mnemonic (decode (BitVec.ofNat 9 n)) == .BIT0) = 1 ∧
  ((List.range 512).countP fun n => mnemonic (decode (BitVec.ofNat 9 n)) == .BIT1) = 1 ∧
  ((List.range 512).countP fun n => mnemonic (decode (BitVec.ofNat 9 n)) == .SKIP) = 254 ∧
  ((List.range 512).countP fun n => mnemonic (decode (BitVec.ofNat 9 n)) == .END) = 256

/-- R80, R83, R84: decoding the word of a well-formed command gives the command back, with its character at every value; and
every word decodes to a well-formed command whose word it is, so that no bit of a word is dropped. -/
def Obligations.DecodeAndEncodeAgree : Prop :=
  (∀ i : Instr, wellFormed i = true → decode (encode i) = i) ∧
  (∀ w : CommandWord, wellFormed (decode w) = true ∧ encode (decode w) = w)

/-- R95: the worked encodings, from the string form (R93, R94). -/
def Obligations.WorkedEncodings : Prop :=
  stringForm ['1', '0', '1'] = [0x031, 0x030, 0x031, 0x100] ∧
  stringForm ['1', '0', '\n', '1', '0', '\n'] = [0x031, 0x030, 0x00A, 0x031, 0x030, 0x00A, 0x100] ∧
  stringForm [' ', ' ', ' ', '\n'] = [0x020, 0x020, 0x020, 0x00A, 0x100]

/-- R51 and R94: the stream of any characters, END after the last, is a well-formed IN: characters, then exactly one END. -/
def Obligations.CharacterStreamsAreWellFormed : Prop :=
  ∀ s : List Byte, wellFormedStream ((streamWords s).map decode) = true

/-- R82 and D32 (the coding of text is general knowledge, G1 and G3; log 1, log 18): the UTF-8 bytes of any text carry exactly the
meaningful bits of its characters '0' and '1'. -/
def Obligations.Utf8TextKeepsItsBits : Prop :=
  ∀ cs : List Char, bitsOf (cs.flatMap charBytes) = (cs.filter fun ch => ch == '0' || ch == '1').map (· == '1')

/-- R86: the character field of SKIP and of END has no effect on any state. -/
def Obligations.IgnoredFieldHasNoEffect : Prop :=
  ∀ (c c' : Byte) (s : State),
    exec (.skip c) s = exec (.skip c') s ∧ exec (.endStream c) s = exec (.endStream c') s

/-! ### Each command by its rule -/

/-- R110: BIT0, whole. Its word; holding a bit; completing a byte that the sink accepts; the exception; not accepted outside
RUN; and that the byte it emits is `ACC*2`, an even value, where bit 7 of ACC is 0. Not accepted
means here that the step changes nothing (R196 and R176; log 8 for the form); the lists of answers are those of log 5 and log 6. -/
def Obligations.Bit0FollowsItsRule : Prop :=
  decode 0x030 = .bit0 ∧
  (∀ s : State, s.block.phase = .run → s.block.cnt ≠ 7 →
    exec .bit0 s = .next { s with
      pos := s.pos + 1, input := s.input.tail
      block := { s.block with acc := s.block.acc <<< 1, cnt := s.block.cnt + 1, bits := s.block.bits + 1 } }) ∧
  (∀ (s : State) (as : List SinkAnswer), s.block.phase = .run → s.block.cnt = 7 → s.answers = .ok :: as →
    exec .bit0 s = .next { s with
      pos := s.pos + 1, input := s.input.tail, answers := as, out := s.out ++ [s.block.acc <<< 1]
      block := { s.block with acc := 0, cnt := 0, bits := s.block.bits + 1, nbytes := s.block.nbytes + 1 } }) ∧
  (∀ (s : State) (c : Cause) (landed : Bool) (as : List SinkAnswer),
    s.block.phase = .run → s.block.cnt = 7 → s.answers = .fail c landed :: as →
    exec .bit0 s = .next { s with
      pos := s.pos + 1, input := s.input.tail, answers := as
      out := s.out ++ (if landed then [s.block.acc <<< 1] else [])
      block := { s.block with phase := .error, errcode := .ioerr, cause := c } }) ∧
  (∀ s : State, s.block.phase ≠ .run → exec .bit0 s = .next s) ∧
  (∀ a : Byte, (a <<< 1).toNat % 2 = 0 ∧ (a.getLsbD 7 = false → (a <<< 1).toNat = a.toNat * 2))

/-- R111: BIT1, whole, clause by clause as for BIT0; the byte it emits is `ACC*2 + 1`, an odd value, where bit 7 of ACC is 0.
Forms as for BIT0 (log 5, log 6, log 8). -/
def Obligations.Bit1FollowsItsRule : Prop :=
  decode 0x031 = .bit1 ∧
  (∀ s : State, s.block.phase = .run → s.block.cnt ≠ 7 →
    exec .bit1 s = .next { s with
      pos := s.pos + 1, input := s.input.tail
      block := { s.block with acc := s.block.acc <<< 1 ||| 1, cnt := s.block.cnt + 1, bits := s.block.bits + 1 } }) ∧
  (∀ (s : State) (as : List SinkAnswer), s.block.phase = .run → s.block.cnt = 7 → s.answers = .ok :: as →
    exec .bit1 s = .next { s with
      pos := s.pos + 1, input := s.input.tail, answers := as, out := s.out ++ [s.block.acc <<< 1 ||| 1]
      block := { s.block with acc := 0, cnt := 0, bits := s.block.bits + 1, nbytes := s.block.nbytes + 1 } }) ∧
  (∀ (s : State) (c : Cause) (landed : Bool) (as : List SinkAnswer),
    s.block.phase = .run → s.block.cnt = 7 → s.answers = .fail c landed :: as →
    exec .bit1 s = .next { s with
      pos := s.pos + 1, input := s.input.tail, answers := as
      out := s.out ++ (if landed then [s.block.acc <<< 1 ||| 1] else [])
      block := { s.block with phase := .error, errcode := .ioerr, cause := c } }) ∧
  (∀ s : State, s.block.phase ≠ .run → exec .bit1 s = .next s) ∧
  (∀ a : Byte, (a <<< 1 ||| 1).toNat % 2 = 1 ∧ (a.getLsbD 7 = false → (a <<< 1 ||| 1).toNat = a.toNat * 2 + 1))

/-- R112: SKIP, whole. Every character but '0' and '1' is a SKIP; it advances POS and does nothing else, at any CNT; not accepted
outside RUN (form: log 8). -/
def Obligations.SkipFollowsItsRule : Prop :=
  (∀ c : Byte, c ≠ 0x30 → c ≠ 0x31 → decode (0#1 ++ c) = .skip c) ∧
  (∀ (c : Byte) (s : State), s.block.phase = .run →
    exec (.skip c) s = .next { s with pos := s.pos + 1, input := s.input.tail }) ∧
  (∀ (c : Byte) (s : State), s.block.phase ≠ .run → exec (.skip c) s = .next s)

/-- R130: END, whole. Every word with `e = 1`; nothing held; a flush the sink accepts; the exception; not accepted outside RUN.
Forms as for BIT0 (log 5, log 6, log 8). -/
def Obligations.EndFollowsItsRule : Prop :=
  (∀ c : Byte, decode (1#1 ++ c) = .endStream c) ∧
  (∀ (c : Byte) (s : State), s.block.phase = .run → s.block.cnt = 0 →
    exec (.endStream c) s = .next { s with
      pos := s.pos + 1, input := s.input.tail
      block := { s.block with padded := false, padn := 0, phase := .done } }) ∧
  (∀ (c : Byte) (s : State) (as : List SinkAnswer),
    s.block.phase = .run → s.block.cnt ≠ 0 → s.answers = .ok :: as →
    exec (.endStream c) s = .next { s with
      pos := s.pos + 1, input := s.input.tail, answers := as
      out := s.out ++ [s.block.acc <<< (8 - s.block.cnt.toNat)]
      block := { s.block with
        nbytes := s.block.nbytes + 1, padded := true, padn := BitVec.ofNat 3 (8 - s.block.cnt.toNat)
        acc := 0, cnt := 0, phase := .done } }) ∧
  (∀ (c : Byte) (s : State) (e : Cause) (landed : Bool) (as : List SinkAnswer),
    s.block.phase = .run → s.block.cnt ≠ 0 → s.answers = .fail e landed :: as →
    exec (.endStream c) s = .next { s with
      pos := s.pos + 1, input := s.input.tail, answers := as
      out := s.out ++ (if landed then [s.block.acc <<< (8 - s.block.cnt.toNat)] else [])
      block := { s.block with phase := .error, errcode := .ioerr, cause := e } }) ∧
  (∀ (c : Byte) (s : State), s.block.phase ≠ .run → exec (.endStream c) s = .next s)

/-- R200 K-e and R205, in the model's form (log 5): while the sink has not answered an offer, the command waits and no
register changes. -/
def Obligations.OfferWaitsForTheSink : Prop :=
  ∀ s : State, s.block.phase = .run → s.answers = [] →
    (s.block.cnt = 7 → exec .bit0 s = .next s ∧ exec .bit1 s = .next s) ∧
    (s.block.cnt ≠ 0 → ∀ c : Byte, exec (.endStream c) s = .next s)

/-- R131 (marked by the spec as derived from R130): the eight cases of END. With nothing held, no byte and no padding; with `r` bits
held, `k = 8 - r` is PADN, the byte's low `k` bits are 0 and the `r` bits above them are the held bits in order. -/
def Obligations.FlushedByteByCount : Prop :=
  ∀ (c : Byte) (s : State), s.block.phase = .run →
    (s.block.cnt = 0 → ∃ t, exec (.endStream c) s = .next t ∧ t.out = s.out ∧
      t.block.padded = false ∧ t.block.padn = 0 ∧ t.block.phase = .done) ∧
    (∀ as, s.block.cnt ≠ 0 → s.answers = .ok :: as → ∃ t v, exec (.endStream c) s = .next t ∧ t.out = s.out ++ [v] ∧
      t.block.padded = true ∧ t.block.padn.toNat = 8 - s.block.cnt.toNat ∧ t.block.phase = .done ∧
      lowBits v 8 = heldBits s.block ++ List.replicate (8 - s.block.cnt.toNat) false)

/-- R134 (marked by the spec as derived from R130 and R32): the flushed byte depends only on the held bits, and in a state that
meets I-d no set bit is shifted out. -/
def Obligations.FlushedByteValue : Prop :=
  ∀ (c : Byte) (s : State) (as : List SinkAnswer), s.block.phase = .run → s.block.cnt ≠ 0 → s.answers = .ok :: as →
    ∃ t v, exec (.endStream c) s = .next t ∧ t.out = s.out ++ [v] ∧
      v.toNat = bitsValue (heldBits s.block) * 2 ^ (8 - s.block.cnt.toNat) ∧
      (s.block.acc.toNat < 2 ^ s.block.cnt.toNat → v.toNat = s.block.acc.toNat * 2 ^ (8 - s.block.cnt.toNat))

/-- R132 (marked by the spec as derived from R130): held bits that are all zero flush to a byte 0x00 with PADDED = 1; only CNT
decides whether END emits, whatever is in ACC. -/
def Obligations.ZeroBitsFlushToZeroByte : Prop :=
  (∀ (c : Byte) (s : State) (as : List SinkAnswer),
    s.block.phase = .run → s.block.cnt ≠ 0 → s.block.acc = 0 → s.answers = .ok :: as →
    ∃ t, exec (.endStream c) s = .next t ∧ t.out = s.out ++ [0x00] ∧ t.block.padded = true) ∧
  (∀ (c : Byte) (s : State), s.block.phase = .run → s.block.cnt = 0 →
    ∃ t, exec (.endStream c) s = .next t ∧ t.out = s.out ∧ t.block.padded = false)

/-- R113 (marked by the spec as derived from R110, R111 and R32): where I-d holds, bit 7 of ACC is 0 and `(ACC << 1)[7:0] = ACC * 2`
exactly, so a BIT command drops no set bit: holding the bit doubles ACC and adds it, and I-d holds again. -/
def Obligations.ShiftLosesNoBit : Prop :=
  ∀ s : State, s.block.phase = .run → s.block.acc.toNat < 2 ^ s.block.cnt.toNat →
    s.block.acc.getLsbD 7 = false ∧ (s.block.acc <<< 1).toNat = s.block.acc.toNat * 2 ∧
    (s.block.cnt ≠ 7 →
      (∃ t, exec .bit0 s = .next t ∧ t.block.acc.toNat = s.block.acc.toNat * 2 ∧
        t.block.acc.toNat < 2 ^ t.block.cnt.toNat) ∧
      (∃ t, exec .bit1 s = .next t ∧ t.block.acc.toNat = s.block.acc.toNat * 2 + 1 ∧
        t.block.acc.toNat < 2 ^ t.block.cnt.toNat))

/-- R114 (marked by the spec as derived from R110 and R111): the byte emitted at the eighth bit of a group depends only on the eight
bits, whatever ACC held when the group began. -/
def Obligations.GroupByteForgetsOldAcc : Prop :=
  ∀ (s : State) (g : List Bool) (ws : List CommandWord) (as : List SinkAnswer),
    s.block.phase = .run → s.block.cnt = 0 → s.rst = [] → g.length = 8 →
    s.input = g.map (fun b => if b then 0x031 else 0x030) ++ ws → s.answers = .ok :: as →
    ∃ t, Sys2Proof.core.run 8 s = .next t ∧ t.out = s.out ++ [byteOf g] ∧ t.block.acc = 0 ∧ t.block.cnt = 0 ∧
      t.block.nbytes = s.block.nbytes + 1 ∧ t.input = ws

/-- I-e and I-g of R32 (marked by the spec as derived from R20, R21, R24, R25 and the command rules), as a law of one step that
holds in every state: a BIT command that completes without fault appends exactly its bit to the meaningful bits in OUT and ACC, and
SKIP appends none. -/
def Obligations.BitsInsideGrowByTheBitTaken : Prop :=
  ∀ (s : State) (as : List SinkAnswer), s.block.phase = .run → (s.block.cnt ≠ 7 ∨ s.answers = .ok :: as) →
    (∃ t, exec .bit0 s = .next t ∧ bitsInside t = bitsInside s ++ [false]) ∧
    (∃ t, exec .bit1 s = .next t ∧ bitsInside t = bitsInside s ++ [true]) ∧
    (∀ c, ∃ t, exec (.skip c) s = .next t ∧ bitsInside t = bitsInside s)

/-! ### What commands leave alone -/

/-- The frame of all four commands, for every next state: what the rules R110, R111, R112 and R130 do not write is unchanged, and every
byte of OUT but the one at the next index, the only one a command stores to (R52), reads as before; every byte, where no answer of the
sink is used, as by BIT0 and BIT1 with CNT not 7 and END with CNT = 0. ERRCODE and CAUSE stay unless the command uses a refusal. -/
def Obligations.CommandsLeaveTheRest : Prop :=
  ∀ (i : Instr) (s t : State), exec i s = .next t →
    t.rst = s.rst ∧
    (∀ a, a ≠ s.out.length → readOut t a = readOut s a) ∧
    (mnemonic i ≠ .END → t.block.padded = s.block.padded ∧ t.block.padn = s.block.padn) ∧
    (mnemonic i = .SKIP → t.block = s.block ∧ t.out = s.out ∧ t.answers = s.answers) ∧
    (mnemonic i = .END ∨ mnemonic i = .SKIP → t.block.bits = s.block.bits) ∧
    (t.answers = s.answers → t.out = s.out) ∧
    (((i = .bit0 ∨ i = .bit1) ∧ s.block.cnt ≠ 7) ∨ (mnemonic i = .END ∧ s.block.cnt = 0) →
      t.answers = s.answers ∧ t.out = s.out ∧ t.block.nbytes = s.block.nbytes) ∧
    ((∀ c landed, s.answers ≠ .fail c landed :: t.answers) →
      t.block.errcode = s.block.errcode ∧ t.block.cause = s.block.cause ∧
      (t.block.phase = s.block.phase ∨ (mnemonic i = .END ∧ s.block.phase = .run ∧ t.block.phase = .done)))

/-- R24: BITS goes up by one at every BIT0 and BIT1 that completes without fault, and by nothing else; reset puts it
back to 0. -/
def Obligations.BitsCountsCompletedBitCommands : Prop :=
  (∀ (i : Instr) (s t : State), exec i s = .next t →
    t.block.bits = s.block.bits +
      (if (i = .bit0 ∨ i = .bit1) ∧ s.block.phase = .run ∧ t.pos = s.pos + 1 ∧ t.block.phase = .run then 1 else 0)) ∧
  (∀ s t : State, step s = .next t → hostResets s = true → t.block.bits = 0) ∧
  (∀ s t : State, step s = .next t → hostResets s = false → s.input = [] → t.block.bits = s.block.bits)

/-- R25 and R59: NBYTES goes up by one with every emission the sink answers `ok`, and by nothing else; a command moves at most
one byte, and only whole. Where NBYTES was the length of OUT, it still is, but for a refused byte that landed (U3;
log 6); reset puts it back to 0. -/
def Obligations.NbytesCountsAcceptedBytes : Prop :=
  (∀ (i : Instr) (s t : State), exec i s = .next t →
    (s.answers = .ok :: t.answers ∧ t.block.nbytes = s.block.nbytes + 1 ∧ ∃ v, t.out = s.out ++ [v]) ∨
    (t.answers = s.answers ∧ t.block.nbytes = s.block.nbytes ∧ t.out = s.out) ∨
    (∃ c landed v, s.answers = .fail c landed :: t.answers ∧ t.block.nbytes = s.block.nbytes ∧
      t.out = s.out ++ (if landed then [v] else []))) ∧
  (∀ (i : Instr) (s t : State), exec i s = .next t → s.out.length = s.block.nbytes →
    t.out.length = t.block.nbytes ∨ (t.block.phase = .error ∧ t.out.length = t.block.nbytes + 1)) ∧
  (∀ s t : State, step s = .next t → hostResets s = true → t.block.nbytes = 0) ∧
  (∀ s t : State, step s = .next t → hostResets s = false → s.input = [] → t.block.nbytes = s.block.nbytes)

/-- R52: the block never rewrites or removes a byte of OUT. Over any number of steps OUT only grows. -/
def Obligations.OutOnlyGrows : Prop :=
  ∀ (k : Nat) (s : State), ∃ t tail, Sys2Proof.core.run k s = .next t ∧ t.out = s.out ++ tail ∧ tail.length ≤ k

/-- R23: ACC is only ever kept, cleared, or shifted by one with a bit entering; and a byte offered is ACC shifted by one with a bit
entering, or ACC shifted by 1 to 7 places. -/
def Obligations.DataPathHasThreeOperations : Prop :=
  ∀ (i : Instr) (s t : State), exec i s = .next t →
    (t.block.acc = s.block.acc ∨ t.block.acc = 0 ∨ ∃ b : Bool, t.block.acc = accShl1 s.block.acc b) ∧
    (t.out = s.out ∨ (∃ b : Bool, t.out = s.out ++ [accShl1 s.block.acc b]) ∨
      ∃ k, 1 ≤ k ∧ k ≤ 7 ∧ t.out = s.out ++ [accShln s.block.acc k])

/-! ### The exception -/

/-- R161 (marked by the spec as derived from R110 to R112 and R130): SKIP never raises, BIT0 and BIT1 with CNT from 0 to 6 never
raise, END with CNT = 0 never raises; only a refused emission raises. -/
def Obligations.OnlyARefusedByteRaises : Prop :=
  ∀ (i : Instr) (s t : State), s.block.phase = .run → exec i s = .next t → t.block.phase = .error →
    (((i = .bit0 ∨ i = .bit1) ∧ s.block.cnt = 7) ∨ (mnemonic i = .END ∧ s.block.cnt ≠ 0)) ∧
    ∃ c landed as, s.answers = .fail c landed :: as

/-- R162, R163 and R58: the exception is precise. PHASE and ERRCODE are written, CAUSE is the sink's, no other register changes; POS counts the
command; OUT keeps every earlier byte, and the refused byte is wholly there or absent (log 6); no later command is taken (form:
log 8). -/
def Obligations.ExceptionIsPrecise : Prop :=
  ∀ (i : Instr) (s t : State), s.block.phase = .run → exec i s = .next t → t.block.phase = .error →
    ∃ c landed v, s.answers = .fail c landed :: t.answers ∧
      t.block = { s.block with phase := .error, errcode := .ioerr, cause := c } ∧ t.pos = s.pos + 1 ∧
      t.input = s.input.tail ∧ t.out = s.out ++ (if landed then [v] else []) ∧ ∀ j, exec j t = .next t

/-- R196 and R164: in DONE and in ERROR no command is accepted, in the untimed machine and on the ports, and without a reset every
register holds for ever (a step that changes nothing is the model's form of a command not accepted; log 8); reset lifts the hold,
and the waiting command is still there. -/
def Obligations.NothingIsAcceptedOutsideRun : Prop :=
  ∀ s : State, s.block.phase ≠ .run →
    (∀ i, exec i s = .next s) ∧
    (∀ x, cmdReady s.block x = false ∧ outValid s.block x = false) ∧
    ((∀ r ∈ s.rst, r = false) → ∀ k, Sys2Proof.core.run k s = .next { s with rst := s.rst.drop k }) ∧
    (∀ r, s.rst = true :: r → ∃ t, step s = .next t ∧ t.block.phase = .run ∧ t.input = s.input)

/-- R136, R165 and R28: an accepted END leaves PHASE at DONE or ERROR, no command is accepted there, and only reset returns to RUN
(form of a command not accepted: log 8). -/
def Obligations.OnlyResetReopens : Prop :=
  (∀ (c : Byte) (s t : State), s.block.phase = .run → exec (.endStream c) s = .next t → t.pos = s.pos + 1 →
    t.block.phase = .done ∨ t.block.phase = .error) ∧
  (∀ (i : Instr) (s : State), s.block.phase ≠ .run → exec i s = .next s) ∧
  (∀ s t : State, step s = .next t → s.block.phase ≠ .run → t.block.phase = .run → hostResets s = true) ∧
  (∀ s t : State, step s = .next t → s.block.phase = .done → t.block.phase ≠ .error) ∧
  (∀ s t : State, step s = .next t → s.block.phase = .error → t.block.phase ≠ .done)

/-! ### Reset and the step -/

/-- R35: the value of every piece of the block's state, and POS, right after reset; and reset, from whatever state, puts the block's
registers and POS at these values and does not touch OUT. -/
def Obligations.ResetValues : Prop :=
  State.reset.block.acc = 0x00 ∧ State.reset.block.cnt = 0 ∧ State.reset.block.bits = 0 ∧
  State.reset.block.nbytes = 0 ∧ State.reset.block.padded = false ∧ State.reset.block.padn = 0 ∧
  State.reset.block.phase = .run ∧ State.reset.block.errcode = .none ∧ State.reset.block.cause = ⟨0⟩ ∧
  State.reset.pos = 0 ∧
  ∀ s : State, (applyReset s).block = State.reset.block ∧ (applyReset s).pos = 0 ∧ (applyReset s).out = s.out

/-- R190, R191 and R192, with the host's choice in the model's form (log 7): in every state and phase, reset wins over a command,
puts every register at its reset value and POS at 0, and touches neither OUT nor IN nor the sink: held bits are dropped, nothing is
emitted, and the command stays with the source. -/
def Obligations.ResetStep : Prop :=
  ∀ (s : State) (r : List Bool), s.rst = true :: r →
    step s = .next { State.reset with input := s.input, out := s.out, answers := s.answers, rst := r }

/-- R83 and R191, with the source and the host in the model's form (log 4, log 7): a step at which the host does not reset and the
source presents `w` is the command `decode w`. -/
def Obligations.StepRunsTheDecodedCommand : Prop :=
  ∀ (s : State) (w : CommandWord) (ws : List CommandWord) (r : List Bool), s.input = w :: ws →
    (s.rst = [] → step s = exec (decode w) s) ∧
    (s.rst = false :: r → step s = exec (decode w) { s with rst := r }) ∧
    (∀ i, wellFormed i = true → w = encode i → s.rst = [] → step s = exec i s)

/-- R176, with quiet agents in the model's form (log 9): with no command and no reset, nothing changes, in any phase, for ever. -/
def Obligations.QuietMachineHoldsItsState : Prop :=
  ∀ (s : State), s.input = [] → s.rst = [] → ∀ k, Sys2Proof.core.run k s = .next s

/-- R87 and R166: no word, state or event raises anything that stops the machine: every step answers a next state. Where the spec has no
step at all (a command offered in DONE or ERROR, an offer the sink has not answered, no command) that answer is the model's form, the
state unchanged (log 8, log 5, log 9). -/
def Obligations.EveryStepAnswersANextState : Prop :=
  (∀ (i : Instr) (s : State), ∃ t, exec i s = .next t) ∧ (∀ s : State, ∃ t, step s = .next t)

/-- R52, R30: a step reads neither OUT nor POS. Changing both changes nothing else of the result, and the same bytes are appended. -/
def Obligations.StepReadsNeitherOutNorPos : Prop :=
  ∀ (s t : State) (o : List Byte) (p : Nat), step s = .next t →
    ∃ tail q, t.out = s.out ++ tail ∧
      step { s with out := o, pos := p } = .next { t with out := o ++ tail, pos := q } ∧
      (hostResets s = true → q = 0 ∧ t.pos = 0) ∧ (hostResets s = false → q + s.pos = t.pos + p)

/-- R149 (marked by the spec as derived from R110 to R112 and R130): the registers after a step are a function of the registers, the
command presented, the sink's answer and whether the host resets; nothing further ahead in any stream is looked at. -/
def Obligations.StepLooksNoFurtherAhead : Prop :=
  ∀ s s' t t' : State, s.block = s'.block → s.input.head? = s'.input.head? → s.answers.head? = s'.answers.head? →
    hostResets s = hostResets s' → step s = .next t → step s' = .next t' → t.block = t'.block

/-! ### Invariants -/

/-- R32, R33, R34 (R32 and R33 marked by the spec as derived from the command rules): the invariant of each phase holds at reset. -/
def Obligations.BlockInvAtReset : Prop := BlockInv State.reset.block

/-- R32, R33, R34 (R32 and R33 marked by the spec as derived from the command rules): every step keeps the invariant of each phase. -/
def Obligations.BlockInvKeptByEveryStep : Prop :=
  ∀ s t : State, BlockInv s.block → step s = .next t → BlockInv t.block

/-- R63 and 60_exceptions.md R160: with a sink that never fails, no step ends the conversion with the exception. -/
def Obligations.SinkThatNeverFailsIsSafe : Prop :=
  ∀ (k : Nat) (s : State), SinkNeverFails s → Safe s →
    ∃ t, Sys2Proof.core.run k s = .next t ∧ SinkNeverFails t ∧ Safe t

/-! ### The whole conversion -/

/-- R141 (marked by the spec as derived from R110 to R112 and R130): the step machine agrees with `pack`. -/
def Obligations.ConversionAgreesWithPack : Prop :=
  ∀ (s0 : State) (s : List Byte) (as : List SinkAnswer), (∀ a ∈ as, a = .ok) → (pack s).bytes.length ≤ as.length →
    ∃ t, Sys2Proof.core.run (s.length + 1) (beginConversion (streamWords s) as s0) = .next t ∧
      t.block.phase = .done ∧ t.out = (pack s).bytes ∧ t.block.bits = (pack s).nbits ∧
      t.block.nbytes = (pack s).bytes.length ∧ t.block.padded = (pack s).padded ∧ t.block.padn.toNat = (pack s).padn ∧
      t.block.acc = 0 ∧ t.block.cnt = 0 ∧ t.block.errcode = .none ∧ t.pos = s.length + 1 ∧ t.input = []

/-- R145 and R116 (marked by the spec as derived from R140 and R141): after any number of characters of a stream, the emissions so
far accepted, OUT is a prefix of what the whole conversion produces and ACC and CNT hold the bits that are not in it yet. -/
def Obligations.PrefixOfConversion : Prop :=
  ∀ (s0 : State) (s : List Byte) (f : Nat) (rest : List SinkAnswer) (i : Nat), i ≤ s.length →
    (bitsOf (s.take i)).length / 8 ≤ f →
    ∃ t, Sys2Proof.core.run i (beginConversion (streamWords s) (List.replicate f .ok ++ rest) s0) = .next t ∧
      t.block.phase = .run ∧
      t.out = (pack s).bytes.take ((bitsOf (s.take i)).length / 8) ∧
      heldBits t.block = (bitsOf (s.take i)).drop (8 * ((bitsOf (s.take i)).length / 8)) ∧
      t.block.acc.toNat = bitsValue (heldBits t.block) ∧
      t.block.bits = (bitsOf (s.take i)).length ∧ t.block.cnt.toNat = (bitsOf (s.take i)).length % 8 ∧
      t.block.nbytes = (bitsOf (s.take i)).length / 8 ∧ t.pos = i

/-- R148 (marked by the spec as derived from R110, R111, R130 and R162): a sink that accepts `f` bytes and refuses the next. If
there is no next byte the conversion ends as in R141; otherwise it stops at the command that completes byte `f`.
The steps past END and past ERROR change nothing, in the model's form (log 8, log 9). -/
def Obligations.FailingSinkStopsTheConversion : Prop :=
  ∀ (s0 : State) (s : List Byte) (f : Nat) (c : Cause) (landed : Bool) (as : List SinkAnswer) (k : Nat),
    s.length + 1 ≤ k →
    ((pack s).bytes.length ≤ f →
      ∃ t, Sys2Proof.core.run k
          (beginConversion (streamWords s) (List.replicate f .ok ++ .fail c landed :: as) s0) = .next t ∧
        t.block.phase = .done ∧ t.out = (pack s).bytes ∧ t.block.bits = (pack s).nbits ∧
        t.block.nbytes = (pack s).bytes.length ∧ t.block.padded = (pack s).padded ∧
        t.block.padn.toNat = (pack s).padn ∧ t.block.acc = 0 ∧ t.block.cnt = 0 ∧ t.block.errcode = .none ∧
        t.pos = s.length + 1) ∧
    (∀ h : f < (pack s).bytes.length,
      ∃ t, Sys2Proof.core.run k
          (beginConversion (streamWords s) (List.replicate f .ok ++ .fail c landed :: as) s0) = .next t ∧
        t.block.phase = .error ∧ t.block.errcode = .ioerr ∧ t.block.cause = c ∧ t.block.nbytes = f ∧
        t.out = (pack s).bytes.take f ++ (if landed then [(pack s).bytes[f]] else []) ∧
        t.block.bits = (if 8 * f + 8 ≤ (pack s).nbits then 8 * f + 7 else (pack s).nbits) ∧
        t.block.cnt.toNat = t.block.bits % 8 ∧
        heldBits t.block = ((bitsOf s).take t.block.bits).drop (8 * f) ∧
        t.block.acc.toNat = bitsValue (heldBits t.block) ∧
        t.block.padded = false ∧ t.block.padn = 0 ∧ t.answers = as ∧
        t.input = (streamWords s).drop t.pos ∧
        (if 8 * f + 8 ≤ (pack s).nbits then
          (bitsOf (s.take t.pos)).length = 8 * f + 8 ∧ (bitsOf (s.take (t.pos - 1))).length = 8 * f + 7
        else t.pos = s.length + 1))

/-- R133: a stream with no meaningful bit is legal, emits nothing whatever the sink would answer, and ends in DONE. -/
def Obligations.StreamWithNoBitEmitsNothing : Prop :=
  ∀ (s0 : State) (s : List Byte) (as : List SinkAnswer), bitsOf s = [] →
    ∃ t, Sys2Proof.core.run (s.length + 1) (beginConversion (streamWords s) as s0) = .next t ∧
      t.block.phase = .done ∧ t.block.bits = 0 ∧ t.block.nbytes = 0 ∧ t.block.padded = false ∧ t.block.padn = 0 ∧
      t.block.errcode = .none ∧ t.out = [] ∧ t.answers = as

/-- R55 and R56: the value of every full byte of OUT, of the final partial byte, and the length of OUT, after a conversion whose
emissions the sink accepted. -/
def Obligations.OutBytesOfAConversion : Prop :=
  ∀ (s0 : State) (s : List Byte) (as : List SinkAnswer), (∀ a ∈ as, a = .ok) →
    ((bitsOf s).length + 7) / 8 ≤ as.length →
    ∃ t, Sys2Proof.core.run (s.length + 1) (beginConversion (streamWords s) as s0) = .next t ∧
      t.block.phase = .done ∧ t.block.bits = (bitsOf s).length ∧ t.out.length = ((bitsOf s).length + 7) / 8 ∧
      (∀ k, 8 * k + 7 < (bitsOf s).length → ∃ v, readOut t k = some v ∧
        v.toNat = (((bitsOf s)[8 * k]?.getD false).toNat * 128 + ((bitsOf s)[8 * k + 1]?.getD false).toNat * 64 +
          ((bitsOf s)[8 * k + 2]?.getD false).toNat * 32 + ((bitsOf s)[8 * k + 3]?.getD false).toNat * 16 +
          ((bitsOf s)[8 * k + 4]?.getD false).toNat * 8 + ((bitsOf s)[8 * k + 5]?.getD false).toNat * 4 +
          ((bitsOf s)[8 * k + 6]?.getD false).toNat * 2 + ((bitsOf s)[8 * k + 7]?.getD false).toNat * 1)) ∧
      ((bitsOf s).length % 8 ≠ 0 → ∃ v, readOut t ((bitsOf s).length / 8) = some v ∧
        v.toNat = bitsValue ((bitsOf s).drop (8 * ((bitsOf s).length / 8))) * 2 ^ (8 - (bitsOf s).length % 8) ∧
        ∀ j, j < 8 - (bitsOf s).length % 8 → v.getLsbD j = false)

/-- R142 (marked by the spec as derived from R140): only the meaningful bits matter. -/
def Obligations.SkippingLaw : Prop :=
  (∀ s s' : List Byte, bitsOf s = bitsOf s' → pack s = pack s') ∧
  (∀ s : List Byte, pack (s.filter isBit) = pack s)

/-- R143 (marked by the spec as derived from R140): the counts of `pack`. -/
def Obligations.CountLaws : Prop :=
  ∀ s : List Byte,
    (pack s).bytes.length = ((pack s).nbits + 7) / 8 ∧ (pack s).nbits + (pack s).padn = 8 * (pack s).bytes.length ∧
    ((pack s).padded = true ↔ (pack s).padn ≠ 0) ∧ ((pack s).padded = true ↔ (pack s).nbits % 8 ≠ 0) ∧
    (pack s).padn ≤ 7 ∧
    ((∀ c ∈ s, isBit c = true) → (pack s).bytes.length = (s.length + 7) / 8)

/-- R144 (marked by the spec as derived from R140): padding bits are zero, low-order, and in the last byte only: the bits of the
bytes are the meaningful bits, then `padn` zeros. -/
def Obligations.PaddingLaw : Prop :=
  ∀ s : List Byte, streamBits (pack s).bytes = bitsOf s ++ List.replicate (pack s).padn false ∧
    ((pack s).padded = true → ∃ (init : List Byte) (v : Byte), (pack s).bytes = init ++ [v] ∧
      (∀ j, j < (pack s).padn → v.getLsbD j = false) ∧ streamBits init = (bitsOf s).take (8 * init.length))

/-- R146 (marked by the spec as derived from R140): streams whose first part ends on a group boundary pack part by part; in general
they do not. -/
def Obligations.ConcatenationLaw : Prop :=
  (∀ s1 s2 : List Byte, (pack s1).nbits % 8 = 0 → (pack (s1 ++ s2)).bytes = (pack s1).bytes ++ (pack s2).bytes) ∧
  (∃ s1 s2 : List Byte, (pack (s1 ++ s2)).bytes ≠ (pack s1).bytes ++ (pack s2).bytes)

/-- R147 (marked by the spec as derived from R140): the meaningful bits can be recovered from the bytes and their number, and not
from the bytes alone: `"101"` and `"10100000"` both give 0xA0. -/
def Obligations.RecoveryLaw : Prop :=
  (∀ (s : List Byte) (i : Nat), i < (pack s).nbits → recoverBit (pack s).bytes i = (bitsOf s)[i]?) ∧
  (pack [0x31, 0x30, 0x31]).bytes = [0xA0] ∧
  (pack [0x31, 0x30, 0x31, 0x30, 0x30, 0x30, 0x30, 0x30]).bytes = [0xA0] ∧
  bitsOf [0x31, 0x30, 0x31] ≠ bitsOf [0x31, 0x30, 0x31, 0x30, 0x30, 0x30, 0x30, 0x30]

/-! ### The ports -/

/-- R204 and R205, with the environment of a cycle in the model's form (log 4, 5, 7, 11): one clock cycle is one step of the untimed
machine in the environment its inputs describe. The registers after the edge, the command taken, and the byte transferred are those
of the step, for every value the wires may carry.
A cycle that is no step of the untimed machine is a step that changes nothing (log 8, log 9). -/
def Obligations.CycleRefinesStep : Prop :=
  ∀ (landed : Bool) (noise : Byte) (x : Inputs) (s : State), ∃ t,
    step (cycleState landed x s) = .next t ∧ t.block = clockEdge s.block x ∧
    t.pos = (if x.rst then 0 else if fire s.block x then s.pos + 1 else s.pos) ∧
    t.input = (if fire s.block x then [] else (cycleState landed x s).input) ∧
    t.out = s.out ++ (if outValid s.block x && x.outReady then
      (if x.outErr && !landed then [] else [outByte noise s.block x]) else [])

/-- R204: a command and the emission it causes are accepted in one and the same cycle or not at all. -/
def Obligations.EmissionAndCommandHandshakeTogether : Prop :=
  ∀ (b : Block) (x : Inputs),
    (needEmit b x = true → fire b x = true → outValid b x = true ∧ x.outReady = true) ∧
    (outValid b x = true → x.outReady = true → x.cmdValid = true → fire b x = true)

/-- R191 and R194: while `rst` is 1 no command is taken and no byte is offered, and holding it longer changes nothing more. -/
def Obligations.ResetSilencesThePorts : Prop :=
  ∀ (b : Block) (x : Inputs), x.rst = true →
    cmdReady b x = false ∧ outValid b x = false ∧ clockEdge b x = State.reset.block ∧
    clockEdge (clockEdge b x) x = clockEdge b x

/-- R199 S-d, R200 K-e, R205: while the sink holds `out_ready` at 0 no register changes, and as the source keeps its command the
same byte stays on offer. -/
def Obligations.OfferIsHeldUntilAnswered : Prop :=
  ∀ (noise : Byte) (b : Block) (x y : Inputs), outValid b x = true → x.outReady = false → y.rst = false →
    SourceKeepsCommand b x y →
    clockEdge b x = b ∧ outValid b y = true ∧ outByte noise b y = outByte noise b x

/-- R206: `out_valid` and `out_byte` depend on none of `out_ready`, `out_err`, `out_cause`. Where no byte is offered, that `out_byte` is the
same on both sides rests on one free value taken for both, the model's choice (log 11). -/
def Obligations.OfferDoesNotDependOnTheAnswer : Prop :=
  ∀ (noise : Byte) (b : Block) (x : Inputs) (r e : Bool) (c : BitVec Config.causeW),
    outValid b { x with outReady := r, outErr := e, outCause := c } = outValid b x ∧
    outByte noise b { x with outReady := r, outErr := e, outCause := c } = outByte noise b x

/-- R22: ACC and CNT are on no port. In a cycle with no command presented, no output port depends on them; in every cycle no status port
does: at most the handshake of the command and of the offered byte may differ. That `out_byte`, too, is the same on both sides where no byte
is offered is the model's choice and not the spec's (log 11): there it is the one free value `noise`, taken the same on both sides, where
R91 and U7 allow anything, what ACC and CNT hold included. -/
def Obligations.AccAndCntAreOnNoPort : Prop :=
  ∀ (noise : Byte) (b : Block) (a : Byte) (n : BitVec 3) (x : Inputs),
    (x.cmdValid = false → outputs noise { b with acc := a, cnt := n } x = outputs noise b x) ∧
    (let p := outputs noise { b with acc := a, cnt := n } x
     let q := outputs noise b x
     p.stPhase = q.stPhase ∧ p.stPadded = q.stPadded ∧ p.stPadn = q.stPadn ∧ p.stBits = q.stBits ∧
     p.stBytes = q.stBytes ∧ p.stErrcode = q.stErrcode ∧ p.stCause = q.stCause)

/-- R28, R29, R31, R88, R90 and R92: the codes of PHASE and ERRCODE, the reserved codes, and what each status port shows in every cycle,
the counts past the width of their port included. That a cause too wide for `st_cause` shows its low bits is the model's choice (log 21). -/
def Obligations.StatusPortsShowTheRegisters : Prop :=
  (∀ p, phaseOfCode (phaseCode p) = some p) ∧ (∀ e, errOfCode (errCode e) = some e) ∧
  (∀ p, phaseCode p ≠ 0b11) ∧ (∀ e, errCode e ≠ 2 ∧ errCode e ≠ 3) ∧
  phaseCode .run = 0b00 ∧ phaseCode .done = 0b01 ∧ phaseCode .error = 0b10 ∧ errCode .none = 0 ∧ errCode .ioerr = 1 ∧
  (∀ (noise : Byte) (b : Block) (x : Inputs),
    (outputs noise b x).stPhase = phaseCode b.phase ∧ (outputs noise b x).stErrcode = errCode b.errcode ∧
    (outputs noise b x).stCause = BitVec.ofNat Config.causeW b.cause.token ∧
    (outputs noise b x).stPadded = b.padded ∧ (outputs noise b x).stPadn = b.padn ∧
    (outputs noise b x).stBits.toNat = b.bits % 2 ^ Config.countW ∧
    (outputs noise b x).stBytes.toNat = b.nbytes % 2 ^ Config.countW ∧
    (b.bits < 2 ^ Config.countW → (outputs noise b x).stBits.toNat = b.bits))

/-- R162, R164 and R204: a refused byte shows on the status ports after the edge, with the sink's own cause, and stays through every cycle
without reset. -/
def Obligations.ErrorReachesTheStatusPorts : Prop :=
  ∀ (noise : Byte) (b : Block) (x y z : Inputs), outValid b x = true → x.outReady = true → x.outErr = true →
    y.rst = false →
    (outputs noise (clockEdge b x) z).stPhase = 0b10 ∧ (outputs noise (clockEdge b x) z).stErrcode = 1 ∧
    (outputs noise (clockEdge b x) z).stCause = x.outCause ∧ clockEdge (clockEdge b x) y = clockEdge b x

/-! ### The block by itself -/

/-- R37, with R15, R191, R196 and R176: a step of the machine is the step of the block alone, with the command presented, the sink's answer
and the host's reset as its parameters, and the environment does its own part: the source moves on where the command was taken, an answer is
used where a byte was offered, and the byte is in OUT where the answer lands it. The environment held in State is the model's form
(log 4, 5, 6, 7), and so is a step that takes no command (log 8, log 9). -/
def Obligations.StepIsTheBlocksOwnStep : Prop :=
  ∀ s : State, ∃ u t, u = blockStep (hostResets s) (presented s) (s.answers.head?.map SinkAnswer.verdict) s.block ∧
    step s = .next t ∧ t.block = u.block ∧
    t.pos = (if hostResets s then 0 else if u.taken then s.pos + 1 else s.pos) ∧
    t.input = (if u.taken then s.input.tail else s.input) ∧
    t.answers = (if u.offered.isSome then s.answers.tail else s.answers) ∧
    t.out = s.out ++ (if s.answers.head?.any SinkAnswer.lands then u.offered.toList else []) ∧
    t.rst = s.rst.tail

/-- R204 and R205: the ports carry the parameters of the block's step. The registers after the clock edge, the command taken and the byte
offered are those of the block's step with what the inputs of the cycle say (form of a cycle that is no step: log 5, log 8, log 9). -/
def Obligations.ClockEdgeIsTheBlocksOwnStep : Prop :=
  ∀ (noise : Byte) (b : Block) (x : Inputs), ∃ u,
    u = blockStep x.rst (if x.cmdValid then some (portWord x) else none)
      (if x.outReady then some (if x.outErr then .fail (portCause x) else .ok) else none) b ∧
    clockEdge b x = u.block ∧ fire b x = u.taken ∧ outValid b x = u.offered.isSome ∧
    (∀ v, u.offered = some v → outByte noise b x = v)
end

