-- ==== Sys2Proof/Laws/Operands.lean ====
section
/-! SUPPORT. What the operand forms and the two counts of 40_bit_commands.md and 41_end_flush.md compute. -/

namespace Sys2Proof.Machine

@[simp] theorem bitOperand_code0 : bitOperand Config.code0 = false := by decide

@[simp] theorem bitOperand_code1 : bitOperand Config.code1 = true := by decide

/-- The 4-bit intermediate is 8 exactly when seven bits were held (R110). -/
theorem countNext_eq_eight (c : BitVec 3) : countNext c = 8 ↔ c = 7 := by
  revert c; decide

/-- `CNT <- n[2:0]` counts up by one (R110). -/
theorem countNext_low (c : BitVec 3) : (countNext c).setWidth 3 = c + 1 := by
  revert c; decide

/-- With bits held, `k = 8 - CNT` does not borrow (R135). -/
theorem padCount_toNat (c : BitVec 3) (h : c ≠ 0) : (padCount c).toNat = 8 - c.toNat := by
  revert c; decide

/-- With bits held, `PADN <- k[2:0]` keeps all of `k` (R130). -/
theorem padCount_low_toNat (c : BitVec 3) (h : c ≠ 0) : ((padCount c).setWidth 3).toNat = 8 - c.toNat := by
  revert c; decide

/-- `SHL1(b)`, bit by bit (R23). -/
theorem accShl1_getLsbD (a : Byte) (b : Bool) (i : Nat) (h : i < 8) :
    (accShl1 a b).getLsbD i = if i = 0 then b else a.getLsbD (i - 1) := by
  rcases i with - | i
  · cases b <;> simp [accShl1, zext8]
  · cases b <;> simp [accShl1, zext8, h, BitVec.getLsbD_eq_getElem (show i < 8 by omega)]

/-- `SHLN(k)`, bit by bit (R23). -/
theorem accShln_getLsbD (a : Byte) (k i : Nat) (h : i < 8) :
    (accShln a k).getLsbD i = (decide (k ≤ i) && a.getLsbD (i - k)) := by
  simp only [accShln, BitVec.getLsbD_shiftLeft, h, decide_true, Bool.true_and]
  by_cases hk : k ≤ i
  · simp [hk]
  · simp [hk]

/-- `SHL1(b)` as arithmetic: doubling modulo 256, plus the bit (R113). -/
theorem accShl1_toNat (a : Byte) (b : Bool) : (accShl1 a b).toNat = (2 * a.toNat) % 256 + b.toNat := by
  revert a b; decide +revert

end Sys2Proof.Machine
end

