-- ==== Sys2Proof/Laws/State.lean ====
section
/-! SUPPORT. What each update of the state does to each field, so that no later proof unfolds a record update. -/

namespace Sys2Proof.Machine

section TakeCommand
variable (s : State)

@[simp] theorem takeCommand_block : (takeCommand s).block = s.block := rfl
@[simp] theorem takeCommand_pos : (takeCommand s).pos = s.pos + 1 := rfl
@[simp] theorem takeCommand_input : (takeCommand s).input = s.input.tail := rfl
@[simp] theorem takeCommand_out : (takeCommand s).out = s.out := rfl
@[simp] theorem takeCommand_answers : (takeCommand s).answers = s.answers := rfl
@[simp] theorem takeCommand_rst : (takeCommand s).rst = s.rst := rfl

end TakeCommand

section ApplyReset
variable (s : State)

@[simp] theorem applyReset_block : (applyReset s).block = blockReset := rfl
@[simp] theorem applyReset_pos : (applyReset s).pos = 0 := rfl
@[simp] theorem applyReset_input : (applyReset s).input = s.input := rfl
@[simp] theorem applyReset_out : (applyReset s).out = s.out := rfl
@[simp] theorem applyReset_answers : (applyReset s).answers = s.answers := rfl
@[simp] theorem applyReset_rst : (applyReset s).rst = s.rst := rfl

end ApplyReset

section HostTurn
variable (s : State)

@[simp] theorem hostTurn_block : (hostTurn s).block = s.block := rfl
@[simp] theorem hostTurn_pos : (hostTurn s).pos = s.pos := rfl
@[simp] theorem hostTurn_input : (hostTurn s).input = s.input := rfl
@[simp] theorem hostTurn_out : (hostTurn s).out = s.out := rfl
@[simp] theorem hostTurn_answers : (hostTurn s).answers = s.answers := rfl
@[simp] theorem hostTurn_rst : (hostTurn s).rst = s.rst.tail := rfl

end HostTurn

section RaiseIOError
variable (c : Cause) (b : Block)

@[simp] theorem raiseIOError_acc : (raiseIOError c b).acc = b.acc := rfl
@[simp] theorem raiseIOError_cnt : (raiseIOError c b).cnt = b.cnt := rfl
@[simp] theorem raiseIOError_bits : (raiseIOError c b).bits = b.bits := rfl
@[simp] theorem raiseIOError_nbytes : (raiseIOError c b).nbytes = b.nbytes := rfl
@[simp] theorem raiseIOError_padded : (raiseIOError c b).padded = b.padded := rfl
@[simp] theorem raiseIOError_padn : (raiseIOError c b).padn = b.padn := rfl
@[simp] theorem raiseIOError_phase : (raiseIOError c b).phase = .error := rfl
@[simp] theorem raiseIOError_errcode : (raiseIOError c b).errcode = .ioerr := rfl
@[simp] theorem raiseIOError_cause : (raiseIOError c b).cause = c := rfl

end RaiseIOError

section RecordPadding
variable (b : Block)

@[simp] theorem recordNoPadding_acc : (recordNoPadding b).acc = b.acc := rfl
@[simp] theorem recordNoPadding_cnt : (recordNoPadding b).cnt = b.cnt := rfl
@[simp] theorem recordNoPadding_bits : (recordNoPadding b).bits = b.bits := rfl
@[simp] theorem recordNoPadding_nbytes : (recordNoPadding b).nbytes = b.nbytes := rfl
@[simp] theorem recordNoPadding_padded : (recordNoPadding b).padded = false := rfl
@[simp] theorem recordNoPadding_padn : (recordNoPadding b).padn = 0 := rfl
@[simp] theorem recordNoPadding_phase : (recordNoPadding b).phase = b.phase := rfl
@[simp] theorem recordNoPadding_errcode : (recordNoPadding b).errcode = b.errcode := rfl
@[simp] theorem recordNoPadding_cause : (recordNoPadding b).cause = b.cause := rfl
@[simp] theorem recordPadding_acc : (recordPadding b).acc = b.acc := rfl
@[simp] theorem recordPadding_cnt : (recordPadding b).cnt = b.cnt := rfl
@[simp] theorem recordPadding_bits : (recordPadding b).bits = b.bits := rfl
@[simp] theorem recordPadding_nbytes : (recordPadding b).nbytes = b.nbytes := rfl
@[simp] theorem recordPadding_padded : (recordPadding b).padded = true := rfl
@[simp] theorem recordPadding_padn : (recordPadding b).padn = (padCount b.cnt).setWidth 3 := rfl
@[simp] theorem recordPadding_phase : (recordPadding b).phase = b.phase := rfl
@[simp] theorem recordPadding_errcode : (recordPadding b).errcode = b.errcode := rfl
@[simp] theorem recordPadding_cause : (recordPadding b).cause = b.cause := rfl

end RecordPadding

section BeginConversion
variable (ws : List CommandWord) (as : List SinkAnswer) (s : State)

@[simp] theorem beginConversion_block : (beginConversion ws as s).block = blockReset := rfl
@[simp] theorem beginConversion_pos : (beginConversion ws as s).pos = 0 := rfl
@[simp] theorem beginConversion_input : (beginConversion ws as s).input = ws := rfl
@[simp] theorem beginConversion_out : (beginConversion ws as s).out = [] := rfl
@[simp] theorem beginConversion_answers : (beginConversion ws as s).answers = as := rfl
@[simp] theorem beginConversion_rst : (beginConversion ws as s).rst = [] := rfl

end BeginConversion

end Sys2Proof.Machine
end

