-- ==== Sys2Proof/Laws/Ops.lean ====
section
/-! SUPPORT. One lemma for each shared operation, saying all it can do, and the rules of the commands as plans. -/

namespace Sys2Proof.Machine

section Perform
variable (s : State)

theorem perform_held (p : Plan) (h : s.block.phase ≠ .run) : perform p s = .next s := by
  unfold perform
  split <;> simp_all

theorem perform_settle (b : Block) (h : s.block.phase = .run) :
    perform (.settle b) s = .next (takeCommand { s with block := b }) := by
  simp only [perform, h]

theorem perform_offer_waiting (v : Byte) (b : Block) (h : s.block.phase = .run) (ha : s.answers = []) :
    perform (.offer v b) s = .next s := by
  simp only [perform, emit, h, ha]

theorem perform_offer_ok (v : Byte) (b : Block) (as : List SinkAnswer) (h : s.block.phase = .run)
    (ha : s.answers = .ok :: as) :
    perform (.offer v b) s = .next (takeCommand { s with out := s.out ++ [v], answers := as, block := b }) := by
  simp only [perform, emit, h, ha]

theorem perform_offer_fail (v : Byte) (b : Block) (c : Cause) (landed : Bool) (as : List SinkAnswer)
    (h : s.block.phase = .run) (ha : s.answers = .fail c landed :: as) :
    perform (.offer v b) s = .next (takeCommand
      { s with out := s.out ++ (if landed then [v] else []), answers := as, block := raiseIOError c s.block }) := by
  simp only [perform, emit, h, ha]

/-- Everything carrying out a rule can do: hold the command (outside RUN, or while the sink has not answered), settle, append
the accepted byte, or take the exception. -/
theorem perform_cases (p : Plan) :
    (s.block.phase ≠ .run ∧ perform p s = .next s) ∨
    (s.block.phase = .run ∧ ∃ b, p = .settle b ∧ perform p s = .next (takeCommand { s with block := b })) ∨
    (s.block.phase = .run ∧ ∃ v b, p = .offer v b ∧ s.answers = [] ∧ perform p s = .next s) ∨
    (s.block.phase = .run ∧ ∃ v b as, p = .offer v b ∧ s.answers = .ok :: as ∧
      perform p s = .next (takeCommand { s with out := s.out ++ [v], answers := as, block := b })) ∨
    (s.block.phase = .run ∧ ∃ v b c landed as, p = .offer v b ∧ s.answers = .fail c landed :: as ∧
      perform p s = .next (takeCommand { s with out := s.out ++ (if landed then [v] else []), answers := as
                                                block := raiseIOError c s.block })) := by
  by_cases h : s.block.phase = .run
  · rcases p with b | ⟨v, b⟩
    · exact .inr (.inl ⟨h, b, rfl, perform_settle s b h⟩)
    · rcases ha : s.answers with - | ⟨a, as⟩
      · exact .inr (.inr (.inl ⟨h, v, b, rfl, rfl, perform_offer_waiting s v b h ha⟩))
      · rcases a with - | ⟨c, landed⟩
        · exact .inr (.inr (.inr (.inl ⟨h, v, b, as, rfl, rfl, perform_offer_ok s v b as h ha⟩)))
        · exact .inr (.inr (.inr (.inr ⟨h, v, b, c, landed, as, rfl, rfl, perform_offer_fail s v b c landed as h ha⟩)))
  · exact .inl ⟨h, perform_held s p h⟩

end Perform

/-- Every command is carried out by its plan. -/
theorem exec_eq_perform (i : Instr) (s : State) : exec i s = perform (commandPlan i s.block) s := by
  cases i <;> simp [exec, execBit0, execBit1, execSkip, execEndStream, commandPlan]

/-- A BIT command that does not complete a byte (R110, R111). -/
theorem bitPlan_hold (x : Bool) (b : Block) (h : b.cnt ≠ 7) :
    bitPlan x b = .settle { b with acc := accShl1 b.acc x, cnt := b.cnt + 1, bits := b.bits + 1 } := by
  have h8 : countNext b.cnt ≠ 8 := fun e => h ((countNext_eq_eight _).1 e)
  simp only [bitPlan, ne_eq, h8, not_false_eq_true, if_true, countNext_low]

/-- A BIT command that completes a byte (R110, R111). -/
theorem bitPlan_full (x : Bool) (b : Block) (h : b.cnt = 7) :
    bitPlan x b = .offer (accShl1 b.acc x)
      { b with acc := 0, cnt := 0, bits := b.bits + 1, nbytes := b.nbytes + 1 } := by
  have h8 : countNext b.cnt = 8 := (countNext_eq_eight _).2 h
  simp [bitPlan, h8, accClear]

/-- END with nothing held (R130). -/
theorem endPlan_empty (b : Block) (h : b.cnt = 0) :
    endPlan b = .settle { b with padded := false, padn := 0, phase := .done } := by
  simp [endPlan, h, recordNoPadding]

/-- END with bits held (R130). -/
theorem endPlan_held (b : Block) (h : b.cnt ≠ 0) :
    endPlan b = .offer (b.acc <<< (8 - b.cnt.toNat))
      { b with padded := true, padn := (padCount b.cnt).setWidth 3, nbytes := b.nbytes + 1, acc := 0, cnt := 0
               phase := .done } := by
  simp only [endPlan, h, if_false, recordPadding, accShln, accClear, padCount_toNat _ h]

section Step
variable (s : State)

/-- Reset wins over a command (R191). -/
theorem step_reset (h : hostResets s = true) : step s = .next (applyReset (hostTurn s)) := by
  simp [step, h]

/-- With no command presented nothing but the host's turn passes (R176). -/
theorem step_quiet (h : hostResets s = false) (hi : s.input = []) : step s = .next (hostTurn s) := by
  simp [step, presented, h, hi]

/-- A step carries out the decoded command (R83). -/
theorem step_command (w : CommandWord) (ws : List CommandWord) (h : hostResets s = false) (hi : s.input = w :: ws) :
    step s = exec (decode w) (hostTurn s) := by
  simp [step, presented, h, hi]

/-- Everything a step can be. -/
theorem step_cases :
    (hostResets s = true ∧ step s = .next (applyReset (hostTurn s))) ∨
    (hostResets s = false ∧ s.input = [] ∧ step s = .next (hostTurn s)) ∨
    (hostResets s = false ∧ ∃ w ws, s.input = w :: ws ∧ step s = exec (decode w) (hostTurn s)) := by
  by_cases h : hostResets s = true
  · exact .inl ⟨h, step_reset s h⟩
  · have h' : hostResets s = false := by simpa using h
    rcases hi : s.input with - | ⟨w, ws⟩
    · exact .inr (.inl ⟨h', rfl, step_quiet s h' hi⟩)
    · exact .inr (.inr ⟨h', w, ws, rfl, step_command s w ws h' hi⟩)

end Step

end Sys2Proof.Machine
end

