-- ==== Sys2Proof/Laws/BlockStep.lean ====
section
/-! SUPPORT. The equations of the block's own step, and `perform` as the block's turn in RUN with the environment around it. -/

namespace Sys2Proof.Machine

theorem blockStep_reset (cmd : Option CommandWord) (answer : Option Verdict) (b : Block) :
    blockStep true cmd answer b = ⟨blockReset, false, none⟩ := by simp [blockStep]

theorem blockStep_quiet (answer : Option Verdict) (b : Block) :
    blockStep false none answer b = ⟨b, false, none⟩ := by simp [blockStep]

theorem blockStep_run (w : CommandWord) (answer : Option Verdict) (b : Block) (h : b.phase = .run) :
    blockStep false (some w) answer b = planTurn (commandPlan (decode w) b) answer b := by simp [blockStep, h]

theorem blockStep_held (w : CommandWord) (answer : Option Verdict) (b : Block) (h : b.phase ≠ .run) :
    blockStep false (some w) answer b = ⟨b, false, none⟩ := by
  cases hp : b.phase <;> simp_all [blockStep]

/-- Carrying out a plan in RUN: the block takes its turn with what it hears of the next answer, the answer is used up where a byte was
offered, and the byte is appended where the answer lands it. -/
theorem perform_run (p : Plan) (s : State) (h : s.block.phase = .run) :
    perform p s = .next
      (let u := planTurn p (s.answers.head?.map SinkAnswer.verdict) s.block
       { s with
         block := u.block
         pos := if u.taken then s.pos + 1 else s.pos
         input := if u.taken then s.input.tail else s.input
         answers := if u.offered.isSome then s.answers.tail else s.answers
         out := s.out ++ (if s.answers.head?.any SinkAnswer.lands then u.offered.toList else []) }) := by
  rcases s with ⟨b, pos, input, out, answers, rst⟩
  rcases p with b' | ⟨v, b'⟩
  · rw [perform_settle _ _ h]; simp [planTurn, takeCommand]
  · rcases answers with - | ⟨a, as⟩
    · rw [perform_offer_waiting _ _ _ h rfl]; simp [planTurn]
    · rcases a with - | ⟨c, landed⟩
      · rw [perform_offer_ok _ _ _ as h rfl]; simp [planTurn, takeCommand, SinkAnswer.verdict, SinkAnswer.lands]
      · rw [perform_offer_fail _ _ _ c landed as h rfl]
        cases landed <;> simp [planTurn, takeCommand, SinkAnswer.verdict, SinkAnswer.lands]

end Sys2Proof.Machine
end

