-- ==== Sys2Proof/Laws/Exec.lean ====
section
/-! SUPPORT. Everything one command can do, said once: the cases of R110, R111, R112, R130 and R162, and when each happens. -/

namespace Sys2Proof.Machine

/-- The BIT command of a bit. -/
def bitCommand (x : Bool) : Instr := if x then .bit1 else .bit0

/-- What a command makes of a state, case by case. -/
inductive CommandResult (s : State) : Instr → State → Prop where
  /-- Not accepted outside RUN (R196). -/
  | held (i : Instr) (h : s.block.phase ≠ .run) : CommandResult s i s
  /-- The sink has not answered the offer (R205). -/
  | waiting (i : Instr) (h : s.block.phase = .run) (ha : s.answers = []) : CommandResult s i s
  /-- SKIP (R112). -/
  | skipped (c : Byte) (h : s.block.phase = .run) : CommandResult s (.skip c) (takeCommand s)
  /-- A bit is held (R110, R111). -/
  | bitHeld (x : Bool) (h : s.block.phase = .run) (h7 : s.block.cnt ≠ 7) :
      CommandResult s (bitCommand x) (takeCommand { s with block := { s.block with
        acc := accShl1 s.block.acc x, cnt := s.block.cnt + 1, bits := s.block.bits + 1 } })
  /-- A byte is completed and accepted (R110, R111). -/
  | byteAccepted (x : Bool) (as : List SinkAnswer) (h : s.block.phase = .run) (h7 : s.block.cnt = 7)
      (ha : s.answers = .ok :: as) :
      CommandResult s (bitCommand x) (takeCommand { s with
        out := s.out ++ [accShl1 s.block.acc x], answers := as
        block := { s.block with acc := 0, cnt := 0, bits := s.block.bits + 1, nbytes := s.block.nbytes + 1 } })
  /-- A completed byte is refused (R162). -/
  | byteRefused (x : Bool) (c : Cause) (landed : Bool) (as : List SinkAnswer) (h : s.block.phase = .run)
      (h7 : s.block.cnt = 7) (ha : s.answers = .fail c landed :: as) :
      CommandResult s (bitCommand x) (takeCommand { s with
        out := s.out ++ (if landed then [accShl1 s.block.acc x] else []), answers := as
        block := raiseIOError c s.block })
  /-- END with nothing held (R130). -/
  | ended (e : Byte) (h : s.block.phase = .run) (h0 : s.block.cnt = 0) :
      CommandResult s (.endStream e) (takeCommand { s with block := { s.block with
        padded := false, padn := 0, phase := .done } })
  /-- A flushed byte is accepted (R130). -/
  | flushAccepted (e : Byte) (as : List SinkAnswer) (h : s.block.phase = .run) (h0 : s.block.cnt ≠ 0)
      (ha : s.answers = .ok :: as) :
      CommandResult s (.endStream e) (takeCommand { s with
        out := s.out ++ [s.block.acc <<< (8 - s.block.cnt.toNat)], answers := as
        block := { s.block with
          nbytes := s.block.nbytes + 1, padded := true, padn := (padCount s.block.cnt).setWidth 3, acc := 0, cnt := 0
          phase := .done } })
  /-- A flushed byte is refused (R162). -/
  | flushRefused (e : Byte) (c : Cause) (landed : Bool) (as : List SinkAnswer) (h : s.block.phase = .run)
      (h0 : s.block.cnt ≠ 0) (ha : s.answers = .fail c landed :: as) :
      CommandResult s (.endStream e) (takeCommand { s with
        out := s.out ++ (if landed then [s.block.acc <<< (8 - s.block.cnt.toNat)] else []), answers := as
        block := raiseIOError c s.block })

/-- The cases of a BIT command. -/
theorem bitCommand_result (x : Bool) (s t : State) (h : perform (bitPlan x s.block) s = .next t) :
    CommandResult s (bitCommand x) t := by
  rcases perform_cases s (bitPlan x s.block) with ⟨hp, e⟩ | ⟨hp, b, hb, e⟩ | ⟨hp, v, b, hb, ha, e⟩ |
    ⟨hp, v, b, as, hb, ha, e⟩ | ⟨hp, v, b, c, l, as, hb, ha, e⟩ <;> rw [e] at h <;> cases h
  · exact .held _ hp
  · by_cases h7 : s.block.cnt = 7
    · rw [bitPlan_full _ _ h7] at hb; cases hb
    · rw [bitPlan_hold _ _ h7] at hb; cases hb; exact .bitHeld x hp h7
  · exact .waiting _ hp ha
  · by_cases h7 : s.block.cnt = 7
    · rw [bitPlan_full _ _ h7] at hb; cases hb; exact .byteAccepted x as hp h7 ha
    · rw [bitPlan_hold _ _ h7] at hb; cases hb
  · by_cases h7 : s.block.cnt = 7
    · rw [bitPlan_full _ _ h7] at hb; cases hb; exact .byteRefused x c l as hp h7 ha
    · rw [bitPlan_hold _ _ h7] at hb; cases hb

/-- The cases of END. -/
theorem endStream_result (e : Byte) (s t : State) (h : perform (endPlan s.block) s = .next t) :
    CommandResult s (.endStream e) t := by
  rcases perform_cases s (endPlan s.block) with ⟨hp, q⟩ | ⟨hp, b, hb, q⟩ | ⟨hp, v, b, hb, ha, q⟩ |
    ⟨hp, v, b, as, hb, ha, q⟩ | ⟨hp, v, b, c, l, as, hb, ha, q⟩ <;> rw [q] at h <;> cases h
  · exact .held _ hp
  · by_cases h0 : s.block.cnt = 0
    · rw [endPlan_empty _ h0] at hb; cases hb; exact .ended e hp h0
    · rw [endPlan_held _ h0] at hb; cases hb
  · exact .waiting _ hp ha
  · by_cases h0 : s.block.cnt = 0
    · rw [endPlan_empty _ h0] at hb; cases hb
    · rw [endPlan_held _ h0] at hb; cases hb; exact .flushAccepted e as hp h0 ha
  · by_cases h0 : s.block.cnt = 0
    · rw [endPlan_empty _ h0] at hb; cases hb
    · rw [endPlan_held _ h0] at hb; cases hb; exact .flushRefused e c l as hp h0 ha

/-- Every next state of a command is one of the cases. -/
theorem exec_result (i : Instr) (s t : State) (h : exec i s = .next t) : CommandResult s i t := by
  rw [exec_eq_perform] at h
  cases i with
  | bit0 => exact bitCommand_result false s t h
  | bit1 => exact bitCommand_result true s t h
  | skip c =>
    by_cases hp : s.block.phase = .run
    · rw [commandPlan, skipPlan, perform_settle _ _ hp] at h; cases h; exact .skipped c hp
    · rw [perform_held _ _ hp] at h; cases h; exact .held _ hp
  | endStream e => exact endStream_result e s t h

/-- One more step of a run. -/
theorem run_succ (k : Nat) (s t : State) (h : step s = .next t) :
    Host.Core.run Sys2Proof.core (k + 1) s = Host.Core.run Sys2Proof.core k t := by
  have : Sys2Proof.core.step s = .next t := h
  simp only [Host.Core.run, this]

end Sys2Proof.Machine
end

