-- ==== Sys2Proof/Laws/Out.lean ====
section
/-! SUPPORT. OUT as addressed bytes: whatever the list of bytes, the addresses strictly rise from 0, so every operation on OUT keeps
that form. -/

namespace Sys2Proof.Machine

theorem outCells_addresses (s : State) : (outCells s).map (·.1) = List.range s.out.length := by
  apply List.ext_getElem <;> simp [outCells]

/-- The addresses strictly rise. -/
theorem outCells_rising (s : State) : ((outCells s).map (·.1)).Pairwise (· < ·) := by
  rw [outCells_addresses]; exact List.pairwise_lt_range

/-- The cell at a listed address is the byte read there. -/
theorem outCells_read (s : State) (a : Nat) : (outCells s)[a]? = (readOut s a).map fun v => (a, v) := by
  simp [outCells, readOut, List.getElem?_zipIdx, Function.comp_def]

end Sys2Proof.Machine
end

