-- ==== Sys2Proof/Laws/PerInstr.lean ====
section
/-! SUPPORT. Per-command laws about the command as text: its word and its class in the opcode table. -/

/-- The word of a well-formed command lies in exactly one class of 30_encoding.md R85, the class of its mnemonic. -/
def Sys2Proof.Laws.EncodedClass.Statement (i : Sys2Proof.Instr) : Prop :=
  Sys2Proof.wellFormed i = true → Sys2Proof.classesOf (Sys2Proof.encode i) = [Sys2Proof.mnemonic i]

theorem Sys2Proof.Laws.EncodedClass.bit0 : Sys2Proof.Laws.EncodedClass.Statement .bit0 := by
  intro _; decide

theorem Sys2Proof.Laws.EncodedClass.bit1 : Sys2Proof.Laws.EncodedClass.Statement .bit1 := by
  intro _; decide

theorem Sys2Proof.Laws.EncodedClass.skip (c : Sys2Proof.Byte) :
    Sys2Proof.Laws.EncodedClass.Statement (.skip c) := by
  revert c; unfold Sys2Proof.Laws.EncodedClass.Statement; decide

theorem Sys2Proof.Laws.EncodedClass.endStream (c : Sys2Proof.Byte) :
    Sys2Proof.Laws.EncodedClass.Statement (.endStream c) := by
  revert c; unfold Sys2Proof.Laws.EncodedClass.Statement; decide
end

