-- ==== Sys2Proof/Tests/Slice0.lean ====
section
/-! SUPPORT. The model's own tests: well-formedness, decoding, single steps of 95_test_vectors.md, and for every statement with hypotheses a
concrete state that meets them. -/

namespace Sys2Proof.Tests

open Sys2Proof Sys2Proof.Machine

/-! ### Helpers -/

/-- A state in RUN, `bits` meaningful bits in, whose sink will answer `as`. -/
def mid (acc : Byte) (cnt : BitVec 3) (bits nbytes : Nat) (as : List SinkAnswer) : State :=
  { State.reset with
    block := { blockReset with acc := acc, cnt := cnt, bits := bits, nbytes := nbytes }
    answers := as }

/-- The same in another phase. -/
def inPhase (p : Phase) (s : State) : State := { s with block := { s.block with phase := p } }

/-- The next state, if there is one. -/
def after : Host.Outcome State Fault Refusal → Option State
  | .next s => some s
  | _ => none

/-- ACC, CNT and what was appended to an empty OUT, after a command. -/
def accCntOut (i : Instr) (s : State) : Option (Byte × BitVec 3 × List Byte) :=
  (after (exec i s)).map fun t => (t.block.acc, t.block.cnt, t.out)

/-- A refusal of a sink. -/
def refusal : SinkAnswer := .fail ⟨5⟩ true

/-- The inputs of a cycle with a command presented. -/
def cycle (w : CommandWord) (ready err : Bool) : Inputs where
  rst := false
  cmdValid := true
  cmdEnd := fieldE w
  cmdChar := fieldC w
  outReady := ready
  outErr := err
  outCause := 0

/-! ### Well-formedness (30_encoding.md R84, 20_memory.md R51) -/

theorem test_skip_of_a_bit_is_ill_formed :
    wellFormed (.skip 0x30) = false ∧ wellFormed (.skip 0x31) = false ∧ wellFormed (.skip 0x32) = true ∧
    wellFormed (.skip 0x2F) = true := by decide

theorem test_ill_formed_streams :
    wellFormedStream [] = false ∧ wellFormedStream [.bit0] = false ∧ wellFormedStream [.endStream 0, .bit0] = false ∧
    wellFormedStream [.endStream 0, .endStream 0] = false ∧ wellFormedStream [.skip 0x30, .endStream 0] = false ∧
    wellFormedStream [.bit1, .skip 0x0A, .endStream 0] = true ∧ wellFormedStream [.endStream 0] = true := by decide

/-! ### Decoding, words written out bit by bit from 30_encoding.md R84 -/

theorem test_decode_bit0 : decode 0b000110000 = .bit0 := by decide
theorem test_decode_bit1 : decode 0b000110001 = .bit1 := by decide
theorem test_decode_skip :
    decode 0b000101111 = .skip 0x2F ∧ decode 0b000110010 = .skip 0x32 ∧ decode 0b010110001 = .skip 0xB1 ∧
    decode 0b000000000 = .skip 0x00 ∧ decode 0b011111111 = .skip 0xFF := by decide
theorem test_decode_end :
    decode 0b100000000 = .endStream 0x00 ∧ decode 0b100110000 = .endStream 0x30 ∧
    decode 0b111111111 = .endStream 0xFF := by decide
theorem test_encode :
    encode .bit0 = 0x030 ∧ encode .bit1 = 0x031 ∧ encode (.skip 0x0A) = 0x00A ∧ encode (.endStream 0xA5) = 0x1A5 := by decide
theorem test_table_words :
    decodeTableWord 16 0x030 = some .bit0 ∧ decodeTableWord 16 0x1FF = some (.endStream 0xFF) ∧
    decodeTableWord 16 0x200 = none := by decide

/-! ### Single steps (95_test_vectors.md sections 2.1 to 2.4) -/

/-- B1, B5, B10, B14, B15, B18. -/
theorem test_bit0_vectors :
    accCntOut .bit0 (mid 0x00 0 0 0 []) = some (0x00, 1, []) ∧
    accCntOut .bit0 (mid 0x05 3 3 0 []) = some (0x0A, 4, []) ∧
    accCntOut .bit0 (mid 0x7F 7 7 0 [.ok]) = some (0x00, 0, [0xFE]) ∧
    accCntOut .bit0 (mid 0x40 7 7 0 [.ok]) = some (0x00, 0, [0x80]) ∧
    accCntOut .bit0 (mid 0x55 7 7 0 [.ok]) = some (0x00, 0, [0xAA]) ∧
    accCntOut .bit0 (mid 0x80 2 2 0 []) = some (0x00, 3, []) := by decide

/-- F2. -/
theorem test_bit0_refused :
    (after (exec .bit0 (mid 0x00 7 7 0 [refusal]))).map (fun t => (t.block, t.out, t.pos)) =
      some ({ (mid 0x00 7 7 0 []).block with phase := .error, errcode := .ioerr, cause := ⟨5⟩ }, [0x00], 1) := by decide

/-- B2, B6, B7, B9, B13, B17. -/
theorem test_bit1_vectors :
    accCntOut .bit1 (mid 0x00 0 0 0 []) = some (0x01, 1, []) ∧
    accCntOut .bit1 (mid 0x05 3 3 0 []) = some (0x0B, 4, []) ∧
    accCntOut .bit1 (mid 0x3F 6 6 0 []) = some (0x7F, 7, []) ∧
    accCntOut .bit1 (mid 0x7F 7 7 0 [.ok]) = some (0x00, 0, [0xFF]) ∧
    accCntOut .bit1 (mid 0x20 7 7 0 [.ok]) = some (0x00, 0, [0x41]) ∧
    accCntOut .bit1 (mid 0xFF 3 3 0 []) = some (0xFF, 4, []) := by decide

/-- F1. -/
theorem test_bit1_refused :
    (after (exec .bit1 (mid 0x52 7 15 1 [.fail ⟨5⟩ false]))).map (fun t => (t.block, t.out, t.pos)) =
      some ({ (mid 0x52 7 15 1 []).block with phase := .error, errcode := .ioerr, cause := ⟨5⟩ }, [], 1) := by decide

/-- K3: no emission although CNT = 7. -/
theorem test_skip_vector :
    (after (exec (.skip 0x20) (mid 0x7F 7 15 1 [.ok]))).map (fun t => (t.block, t.out, t.answers, t.pos)) =
      some ((mid 0x7F 7 15 1 []).block, [], [.ok], 1) := by decide

/-- E1, E2, E5, E8, E9, E11. -/
theorem test_end_vectors :
    accCntOut (.endStream 0) (mid 0x00 0 0 0 [.ok]) = some (0x00, 0, []) ∧
    accCntOut (.endStream 0) (mid 0x01 1 1 0 [.ok]) = some (0x00, 0, [0x80]) ∧
    accCntOut (.endStream 0xA5) (mid 0x05 3 3 0 [.ok]) = some (0x00, 0, [0xA0]) ∧
    accCntOut (.endStream 0) (mid 0x2A 6 6 0 [.ok]) = some (0x00, 0, [0xA8]) ∧
    accCntOut (.endStream 0) (mid 0x7F 7 7 0 [.ok]) = some (0x00, 0, [0xFE]) ∧
    accCntOut (.endStream 0) (mid 0x00 7 7 0 [.ok]) = some (0x00, 0, [0x00]) := by decide

/-- E5's results, and E12. -/
theorem test_end_results :
    (after (exec (.endStream 0) (mid 0x05 3 3 0 [.ok]))).map
        (fun t => (t.block.bits, t.block.nbytes, t.block.padded, t.block.padn, t.block.phase)) =
      some (3, 1, true, 5, .done) ∧
    (after (exec (.endStream 0) (mid 0x05 3 3 0 [refusal]))).map (fun t => t.block) =
      some { (mid 0x05 3 3 0 []).block with phase := .error, errcode := .ioerr, cause := ⟨5⟩ } := by decide

/-- X3, X4, X6: reset clears the error; a command offered in DONE stays; reset wins over a command. -/
theorem test_reset_and_acceptance :
    (after (step { inPhase .error (mid 0x05 3 3 0 []) with rst := [true] })).map (·.block) = some blockReset ∧
    (after (step { inPhase .done (mid 0x00 0 3 1 []) with input := [0x031] })).map (·.input) = some [0x031] ∧
    (after (step { mid 0x05 3 3 0 [] with rst := [true], input := [0x031] })).map (fun t => (t.block, t.input)) =
      some (blockReset, [0x031]) := by decide

/-- The word of a row runs as the first command after reset. -/
theorem test_first_command_after_reset :
    (after (step (State.reset.withFetchWord 16 0x031))).map (fun t => (t.block.acc, t.block.cnt, t.pos)) = some (0x01, 1, 1) ∧
    (after (step (State.reset.withFetchWord 16 0x100))).map (fun t => (t.block.phase, t.pos)) = some (.done, 1) := by decide

/-- W7 and W9 of `pack`. -/
theorem test_pack_vectors :
    pack (List.replicate 9 0x31) = ⟨[0xFF, 0x80], 9, true, 7⟩ ∧
    pack [0x78, 0x31, 0x79, 0x30, 0x7A] = ⟨[0x80], 2, true, 6⟩ ∧ pack [] = ⟨[], 0, false, 0⟩ := by decide

/-! ### Witnesses: the hypotheses of each statement can be met, clause by clause, at boundary values -/

theorem witness_DecodeAndEncodeAgree :
    wellFormed .bit0 = true ∧ wellFormed (.skip 0x2F) = true ∧ wellFormed (.skip 0x32) = true ∧
    wellFormed (.endStream 0xFF) = true := by decide

/-- For Bit0FollowsItsRule and Bit1FollowsItsRule: CNT 0, CNT 6, a byte accepted, a byte refused, a phase other than RUN. -/
theorem witness_BitCommandsFollowTheirRules :
    ((mid 0x00 0 0 0 []).block.phase = .run ∧ (mid 0x00 0 0 0 []).block.cnt ≠ 7) ∧
    ((mid 0x3F 6 6 0 []).block.phase = .run ∧ (mid 0x3F 6 6 0 []).block.cnt ≠ 7) ∧
    ((mid 0x7F 7 7 0 [.ok]).block.phase = .run ∧ (mid 0x7F 7 7 0 [.ok]).block.cnt = 7 ∧
      (mid 0x7F 7 7 0 [.ok]).answers = .ok :: []) ∧
    ((mid 0x7F 7 7 0 [refusal]).block.phase = .run ∧ (mid 0x7F 7 7 0 [refusal]).block.cnt = 7 ∧
      (mid 0x7F 7 7 0 [refusal]).answers = .fail ⟨5⟩ true :: []) ∧
    (inPhase .done (mid 0 0 8 1 [])).block.phase ≠ .run ∧ (inPhase .error (mid 0x7F 7 7 0 [])).block.phase ≠ .run ∧
    (0x7F#8).getLsbD 7 = false := by decide

theorem witness_SkipFollowsItsRule :
    ((0x2F : Byte) ≠ 0x30 ∧ (0x2F : Byte) ≠ 0x31) ∧ ((0x32 : Byte) ≠ 0x30 ∧ (0x32 : Byte) ≠ 0x31) ∧
    (mid 0x7F 7 15 1 []).block.phase = .run ∧ (inPhase .done (mid 0 0 8 1 [])).block.phase ≠ .run := by decide

/-- For EndFollowsItsRule, FlushedByteByCount and FlushedByteValue: CNT 0, CNT 1, CNT 7, a refusal, a phase other than RUN, and a state
that meets I-d. -/
theorem witness_EndFollowsItsRule :
    ((mid 0x00 0 8 1 []).block.phase = .run ∧ (mid 0x00 0 8 1 []).block.cnt = 0) ∧
    ((mid 0x01 1 1 0 [.ok]).block.phase = .run ∧ (mid 0x01 1 1 0 [.ok]).block.cnt ≠ 0 ∧
      (mid 0x01 1 1 0 [.ok]).answers = .ok :: []) ∧
    ((mid 0x7F 7 7 0 [.ok]).block.phase = .run ∧ (mid 0x7F 7 7 0 [.ok]).block.cnt ≠ 0 ∧
      (mid 0x7F 7 7 0 [.ok]).answers = .ok :: [] ∧ (0x7F#8).toNat < 2 ^ (7#3).toNat) ∧
    ((mid 0x05 3 3 0 [refusal]).block.phase = .run ∧ (mid 0x05 3 3 0 [refusal]).block.cnt ≠ 0 ∧
      (mid 0x05 3 3 0 [refusal]).answers = .fail ⟨5⟩ true :: []) ∧
    (inPhase .error (mid 0x05 3 3 0 [])).block.phase ≠ .run := by decide

theorem witness_OfferWaitsForTheSink :
    ((mid 0x7F 7 7 0 []).block.phase = .run ∧ (mid 0x7F 7 7 0 []).answers = [] ∧ (mid 0x7F 7 7 0 []).block.cnt = 7) ∧
    ((mid 0x01 1 1 0 []).block.phase = .run ∧ (mid 0x01 1 1 0 []).answers = [] ∧ (mid 0x01 1 1 0 []).block.cnt ≠ 0) := by decide

theorem witness_ZeroBitsFlushToZeroByte :
    ((mid 0x00 1 1 0 [.ok]).block.phase = .run ∧ (mid 0x00 1 1 0 [.ok]).block.cnt ≠ 0 ∧
      (mid 0x00 1 1 0 [.ok]).block.acc = 0 ∧ (mid 0x00 1 1 0 [.ok]).answers = .ok :: []) ∧
    ((mid 0xFF 0 0 0 []).block.phase = .run ∧ (mid 0xFF 0 0 0 []).block.cnt = 0) := by decide

theorem witness_ShiftLosesNoBit :
    ((mid 0x3F 6 6 0 []).block.phase = .run ∧ (0x3F#8).toNat < 2 ^ (6#3).toNat ∧ (mid 0x3F 6 6 0 []).block.cnt ≠ 7) ∧
    ((mid 0x7F 7 7 0 []).block.phase = .run ∧ (0x7F#8).toNat < 2 ^ (7#3).toNat) := by decide

theorem witness_GroupByteForgetsOldAcc :
    let g : List Bool := [false, true, false, false, false, false, false, true]
    let s : State := { mid 0xFF 0 0 0 [.ok] with input := g.map (fun b => if b then 0x031 else 0x030) ++ [0x100] }
    s.block.phase = .run ∧ s.block.cnt = 0 ∧ s.rst = [] ∧ g.length = 8 ∧
    s.input = g.map (fun b => if b then 0x031 else 0x030) ++ [0x100] ∧ s.answers = .ok :: [] := by decide

theorem witness_BitsInsideGrowByTheBitTaken :
    ((mid 0x3F 6 6 0 []).block.phase = .run ∧ (mid 0x3F 6 6 0 []).block.cnt ≠ 7) ∧
    ((mid 0x7F 7 7 0 [.ok]).block.phase = .run ∧ (mid 0x7F 7 7 0 [.ok]).answers = .ok :: []) := by decide

/-- For CommandsLeaveTheRest, BitsCountsCompletedBitCommands, NbytesCountsAcceptedBytes and DataPathHasThreeOperations: a next state of each
command, from a state whose OUT has NBYTES bytes and whose sink does not fail, and one where it does. -/
theorem witness_CommandsAnswerANextState :
    (∃ t, exec .bit0 (mid 0x7F 7 7 0 [.ok]) = .next t) ∧ (∃ t, exec .bit1 (mid 0x00 0 0 0 []) = .next t) ∧
    (∃ t, exec (.skip 0x20) (mid 0x7F 7 7 0 []) = .next t) ∧ (∃ t, exec (.endStream 0) (mid 0x01 1 1 0 [.ok]) = .next t) ∧
    (∃ t, exec .bit0 (mid 0x7F 7 7 0 [refusal]) = .next t) ∧
    (mid 0x7F 7 7 0 [.ok]).out.length = (mid 0x7F 7 7 0 [.ok]).block.nbytes ∧
    (∃ t, step { mid 0x05 3 3 0 [] with rst := [true] } = .next t) ∧
    hostResets { mid 0x05 3 3 0 [] with rst := [true] } = true ∧
    mnemonic .bit0 ≠ .END ∧ mnemonic (.skip 0x20) = .SKIP ∧ mnemonic (.endStream 0) = .END :=
  ⟨⟨_, rfl⟩, ⟨_, rfl⟩, ⟨_, rfl⟩, ⟨_, rfl⟩, ⟨_, rfl⟩, rfl, ⟨_, rfl⟩, rfl, by decide, rfl, rfl⟩

/-- For the clauses of CommandsLeaveTheRest about answers: a refusal is waiting and the command, BIT with CNT not 7 and END with CNT = 0,
does not use it; and an `ok` that is used. -/
theorem witness_CommandsLeaveTheRest :
    (∃ t, exec .bit0 (mid 0x3F 6 6 0 [refusal]) = .next t ∧ t.answers = [refusal] ∧
      (∀ c landed, [refusal] ≠ .fail c landed :: t.answers) ∧ (mid 0x3F 6 6 0 [refusal]).block.cnt ≠ 7) ∧
    (∃ t, exec (.endStream 0) (mid 0x00 0 8 1 [refusal]) = .next t ∧ t.answers = [refusal] ∧
      (mid 0x00 0 8 1 [refusal]).block.cnt = 0) ∧
    (∃ t, exec .bit1 (mid 0x7F 7 7 0 [.ok]) = .next t ∧ ∀ c landed, [SinkAnswer.ok] ≠ .fail c landed :: t.answers) :=
  ⟨⟨_, rfl, rfl, fun _ _ h => (show 1 ≠ 2 by decide) (congrArg List.length h), by decide⟩, ⟨_, rfl, rfl, rfl⟩,
    ⟨_, rfl, fun _ _ h => SinkAnswer.noConfusion (List.cons.inj h).1⟩⟩

/-- For OnlyARefusedByteRaises and ExceptionIsPrecise: a BIT command and END that raise. -/
theorem witness_Raises :
    (∃ t, (mid 0x52 7 15 1 [refusal]).block.phase = .run ∧ exec .bit1 (mid 0x52 7 15 1 [refusal]) = .next t ∧
      t.block.phase = .error) ∧
    (∃ t, (mid 0x01 1 1 0 [refusal]).block.phase = .run ∧ exec (.endStream 0) (mid 0x01 1 1 0 [refusal]) = .next t ∧
      t.block.phase = .error) := ⟨⟨_, rfl, rfl, rfl⟩, ⟨_, rfl, rfl, rfl⟩⟩

theorem witness_NothingIsAcceptedOutsideRun :
    (({ inPhase .done (mid 0 0 8 1 []) with rst := [false, false] } : State).block.phase ≠ .run ∧
      ∀ r ∈ ({ inPhase .done (mid 0 0 8 1 []) with rst := [false, false] } : State).rst, r = false) ∧
    ((inPhase .error (mid 0x7F 7 7 0 [])).block.phase ≠ .run ∧
      ({ inPhase .error (mid 0x7F 7 7 0 []) with rst := [true] } : State).rst = true :: []) := by decide

theorem witness_OnlyResetReopens :
    (∃ t, (mid 0x01 1 1 0 [.ok]).block.phase = .run ∧ exec (.endStream 0) (mid 0x01 1 1 0 [.ok]) = .next t ∧
      t.pos = (mid 0x01 1 1 0 [.ok]).pos + 1) ∧
    (inPhase .done (mid 0 0 8 1 [])).block.phase ≠ .run ∧
    (∃ t, step { inPhase .done (mid 0 0 8 1 []) with rst := [true] } = .next t ∧ t.block.phase = .run) ∧
    (∃ t, step (inPhase .done (mid 0 0 8 1 [])) = .next t) ∧ (∃ t, step (inPhase .error (mid 0x7F 7 7 0 [])) = .next t) :=
  ⟨⟨_, rfl, rfl, rfl⟩, by decide, ⟨_, rfl, rfl⟩, ⟨_, rfl⟩, ⟨_, rfl⟩⟩

theorem witness_ResetStep : ({ mid 0x0B 4 4 0 [] with rst := [true, false] } : State).rst = true :: [false] := rfl

theorem witness_StepRunsTheDecodedCommand :
    (let s : State := { mid 0x05 3 3 0 [] with input := [0x030, 0x100] }; s.input = 0x030 :: [0x100] ∧ s.rst = []) ∧
    (let s : State := { mid 0x05 3 3 0 [] with input := [0x1A5], rst := [false, true] }
     s.input = 0x1A5 :: [] ∧ s.rst = false :: [true]) ∧
    wellFormed (.skip 0x0A) = true ∧ 0x00A = encode (.skip 0x0A) := by decide

theorem witness_QuietMachineHoldsItsState : (mid 0x05 3 3 0 [.ok]).input = [] ∧ (mid 0x05 3 3 0 [.ok]).rst = [] := by decide

/-- Both clauses: a reset, and a command that emits. -/
theorem witness_StepReadsNeitherOutNorPos :
    (∃ t, step { mid 0x05 3 3 0 [] with rst := [true] } = .next t) ∧ hostResets { mid 0x05 3 3 0 [] with rst := [true] } = true ∧
    (∃ t, step { mid 0x7F 7 7 0 [.ok] with input := [0x031] } = .next t) ∧
    hostResets { mid 0x7F 7 7 0 [.ok] with input := [0x031] } = false := ⟨⟨_, rfl⟩, rfl, ⟨_, rfl⟩, rfl⟩

/-- Two states that differ in everything a step does not look at. -/
theorem witness_StepLooksNoFurtherAhead :
    let s : State := { mid 0x7F 7 7 0 [.ok] with input := [0x031] }
    let s' : State := { mid 0x7F 7 7 0 [.ok, refusal] with input := [0x031, 0x100], out := [0xAA], pos := 9, rst := [false, true] }
    s.block = s'.block ∧ s.input.head? = s'.input.head? ∧ s.answers.head? = s'.answers.head? ∧
    hostResets s = hostResets s' ∧ (∃ t, step s = .next t) ∧ (∃ t', step s' = .next t') :=
  ⟨rfl, rfl, rfl, rfl, ⟨_, rfl⟩, ⟨_, rfl⟩⟩

/-- A state of each phase that meets the invariant, and its next state. -/
theorem witness_BlockInvKeptByEveryStep :
    BlockInv (mid 0x52 7 15 1 []).block ∧
    BlockInv { blockReset with bits := 3, nbytes := 1, padded := true, padn := 5, phase := .done } ∧
    BlockInv { (mid 0x52 7 15 1 []).block with phase := .error, errcode := .ioerr, cause := ⟨5⟩ } ∧
    (after (step { mid 0x52 7 15 1 [.ok] with input := [0x031] })).isSome :=
  ⟨by decide, by decide, by decide, by decide⟩

theorem witness_SinkThatNeverFailsIsSafe : SinkNeverFails (mid 0x7F 7 7 0 [.ok]) ∧ Safe (mid 0x7F 7 7 0 [.ok]) := by decide

theorem witness_ConversionAgreesWithPack :
    (∀ a ∈ [SinkAnswer.ok], a = .ok) ∧ (pack [0x31, 0x30, 0x31]).bytes.length ≤ [SinkAnswer.ok].length := by decide

/-- In the middle of a group, and after a byte. -/
theorem witness_PrefixOfConversion :
    (2 ≤ [0x31, 0x30, (0x31 : Byte)].length ∧ (bitsOf ([0x31, 0x30, (0x31 : Byte)].take 2)).length / 8 ≤ 0) ∧
    (8 ≤ (List.replicate 9 (0x31 : Byte)).length ∧ (bitsOf ((List.replicate 9 (0x31 : Byte)).take 8)).length / 8 ≤ 1) := by decide

/-- No next byte; a BIT command fails; END fails. -/
theorem witness_FailingSinkStopsTheConversion :
    ([] : List Byte).length + 1 ≤ 1 ∧ (pack []).bytes.length ≤ 0 ∧
    (List.replicate 8 (0x31 : Byte)).length + 1 ≤ 12 ∧ 0 < (pack (List.replicate 8 0x31)).bytes.length ∧
    8 * 0 + 8 ≤ (pack (List.replicate 8 0x31)).nbits ∧
    0 < (pack [0x31]).bytes.length ∧ ¬ 8 * 0 + 8 ≤ (pack [0x31]).nbits := by decide

theorem witness_StreamWithNoBitEmitsNothing : bitsOf [0x20, 0x20, 0x20, 0x0A] = [] ∧ bitsOf [] = [] := by decide

theorem witness_SkippingLaw : bitsOf [0x31, 0x30, 0x0A, 0x31, 0x30, 0x0A] = bitsOf [0x31, 0x30, 0x31, 0x30] := by decide

theorem witness_CountLaws : ∀ c ∈ [(0x31 : Byte), 0x30], isBit c = true := by decide

theorem witness_PaddingLaw : (pack [0x31]).padded = true ∧ 6 < (pack [0x31]).padn := by decide

theorem witness_OutBytesOfAConversion :
    (∀ a ∈ [SinkAnswer.ok], a = .ok) ∧ ((bitsOf (List.replicate 8 0x31)).length + 7) / 8 ≤ [SinkAnswer.ok].length ∧
    8 * 0 + 7 < (bitsOf (List.replicate 8 0x31)).length ∧ (bitsOf [0x31]).length % 8 ≠ 0 ∧
    (bitsOf (List.replicate 7 0x31)).length % 8 ≠ 0 := by decide

theorem witness_ConcatenationLaw : (pack (List.replicate 8 0x30)).nbits % 8 = 0 ∧ (pack []).nbits % 8 = 0 := by decide

theorem witness_RecoveryLaw : 0 < (pack [0x31, 0x30, 0x31]).nbits ∧ 2 < (pack [0x31, 0x30, 0x31]).nbits := by decide

/-- A completed byte and a flushed one, answered in the cycle. -/
theorem witness_EmissionAndCommandHandshakeTogether :
    let b := (mid 0x7F 7 7 0 []).block
    needEmit b (cycle 0x031 true false) = true ∧ fire b (cycle 0x031 true false) = true ∧
    outValid b (cycle 0x100 true true) = true ∧ (cycle 0x100 true true).outReady = true ∧
    (cycle 0x100 true true).cmdValid = true := by decide

theorem witness_ResetSilencesThePorts : ({ cycle 0x031 true false with rst := true } : Inputs).rst = true := rfl

/-- The same command kept from a cycle in which the sink does not answer to the next. -/
theorem witness_OfferIsHeldUntilAnswered :
    let b := (mid 0x7F 7 7 0 []).block
    outValid b (cycle 0x031 false false) = true ∧ (cycle 0x031 false false).outReady = false ∧
    (cycle 0x031 true false).rst = false ∧ SourceKeepsCommand b (cycle 0x031 false false) (cycle 0x031 true false) := by decide

theorem witness_AccAndCntAreOnNoPort : ({ cycle 0x031 true false with cmdValid := false } : Inputs).cmdValid = false := rfl

/-- 40_bit_commands.md R111, its example, in the block alone: 0x41 offered and ACC, CNT cleared; and R200 K-e, the offer waiting. For
StepIsTheBlocksOwnStep and ClockEdgeIsTheBlocksOwnStep: the byte offered that the latter's last clause speaks of. -/
theorem witness_BlockOffersAByte :
    (blockStep false (some 0x031) (some .ok) (mid 0x20 7 7 0 []).block).offered = some 0x41 ∧
    (blockStep false (some 0x031) (some .ok) (mid 0x20 7 7 0 []).block).block.acc = 0 ∧
    (blockStep false (some 0x031) none (mid 0x20 7 7 0 []).block).taken = false := by decide

theorem witness_StatusPortsShowTheRegisters : blockReset.bits < 2 ^ Config.countW := Nat.two_pow_pos _

theorem witness_ErrorReachesTheStatusPorts :
    let b := (mid 0x7F 7 7 0 []).block
    outValid b (cycle 0x031 true true) = true ∧ (cycle 0x031 true true).outReady = true ∧
    (cycle 0x031 true true).outErr = true ∧ (cycle 0x031 true false).rst = false := by decide

end Sys2Proof.Tests
end

section
/-! SUPPORT. What a step answers, read backwards: the next state from `step s = .next t`, and which commands are BIT commands. -/

namespace Sys2Proof.Machine

theorem bitCommand_isBit (x : Bool) : bitCommand x = .bit0 ∨ bitCommand x = .bit1 := by
  cases x
  · exact .inl rfl
  · exact .inr rfl

section StepNext
variable {s t : State}

theorem eq_of_step_reset (h : step s = .next t) (hr : hostResets s = true) : t = applyReset (hostTurn s) := by
  rw [step_reset s hr] at h
  cases h
  rfl

theorem eq_of_step_quiet (h : step s = .next t) (hr : hostResets s = false) (hi : s.input = []) : t = hostTurn s := by
  rw [step_quiet s hr hi] at h
  cases h
  rfl

/-- The registers after a step: those of reset, those before it, or what a command made of them. -/
theorem step_block_cases (h : step s = .next t) :
    t.block = blockReset ∨ t.block = s.block ∨ ∃ i, CommandResult (hostTurn s) i t := by
  rcases step_cases s with ⟨hr, -⟩ | ⟨hr, hi, -⟩ | ⟨-, w, ws, -, e⟩
  · rw [eq_of_step_reset h hr]
    exact .inl rfl
  · rw [eq_of_step_quiet h hr hi]
    exact .inr (.inl rfl)
  · exact .inr (.inr ⟨decode w, exec_result _ _ _ (e ▸ h)⟩)

end StepNext

end Sys2Proof.Machine
end

section
/-! SUPPORT. The invariant of each phase (10_state.md R32, R33, R34) under every write the commands make to the registers. -/

namespace Sys2Proof.Machine

section Phases
variable {b : Block}

theorem blockInv_of_run (hp : b.phase = .run) (h : RunInv b) : BlockInv b := by
  simpa [BlockInv, hp] using h

theorem blockInv_of_done (hp : b.phase = .done) (h : DoneInv b) : BlockInv b := by
  simpa [BlockInv, hp] using h

theorem blockInv_of_error (hp : b.phase = .error) (h : ErrorInv b) : BlockInv b := by
  simpa [BlockInv, hp] using h

end Phases

theorem blockInv_blockReset : BlockInv blockReset := blockInv_of_run rfl (by decide)

section Writes
variable {b : Block}

/-- I-b to I-d when one more bit is held (R113): ACC at most doubles and gains a bit, CNT counts up without wrapping. -/
theorem heldInv_bitHeld (x : Bool) (h : HeldInv b) (h7 : b.cnt ≠ 7) :
    HeldInv { b with acc := accShl1 b.acc x, cnt := b.cnt + 1, bits := b.bits + 1 } := by
  obtain ⟨hcnt, hbytes, hacc⟩ := h
  have hsucc : (b.cnt + 1).toNat = b.cnt.toNat + 1 := by bv_omega
  have hx : x.toNat ≤ 1 := Bool.toNat_le x
  have hshl := accShl1_toNat b.acc x
  refine ⟨?_, ?_, ?_⟩
  · change (b.cnt + 1).toNat = (b.bits + 1) % 8
    bv_omega
  · change b.nbytes = (b.bits + 1) / 8
    bv_omega
  · change (accShl1 b.acc x).toNat < 2 ^ (b.cnt + 1).toNat
    rw [hsucc, Nat.pow_succ]
    omega

/-- I-b to I-d when the eighth bit of a group leaves with its byte (R110, R111). -/
theorem heldInv_byteAccepted (h : HeldInv b) (h7 : b.cnt = 7) :
    HeldInv { b with acc := 0, cnt := 0, bits := b.bits + 1, nbytes := b.nbytes + 1 } := by
  obtain ⟨hcnt, hbytes, -⟩ := h
  rw [h7] at hcnt
  have hmod : 7 = b.bits % 8 := hcnt
  refine ⟨?_, ?_, ?_⟩
  · change 0 = (b.bits + 1) % 8
    omega
  · change b.nbytes + 1 = (b.bits + 1) / 8
    omega
  · exact Nat.one_pos

/-- R33 after an END with nothing held, so with BITS a multiple of 8. -/
theorem doneInv_ended (h : RunInv b) (h0 : b.cnt = 0) :
    DoneInv { b with padded := false, padn := 0, phase := .done } := by
  obtain ⟨⟨hcnt, hbytes, hacc⟩, -, -, herr, hcause⟩ := h
  rw [h0] at hcnt hacc
  have hmod : b.bits % 8 = 0 := hcnt.symm
  refine ⟨?_, h0, ?_, ?_, ?_, herr, hcause⟩
  · exact BitVec.eq_of_toNat_eq (Nat.lt_one_iff.1 hacc)
  · change b.nbytes = (b.bits + 7) / 8
    omega
  · simp [hmod]
  · simp [hmod]

/-- R33 after an END that flushed the held bits. -/
theorem doneInv_flushAccepted (h : RunInv b) (h0 : b.cnt ≠ 0) :
    DoneInv { b with nbytes := b.nbytes + 1, padded := true, padn := (padCount b.cnt).setWidth 3, acc := 0, cnt := 0
                     phase := .done } := by
  obtain ⟨⟨hcnt, hbytes, -⟩, -, -, herr, hcause⟩ := h
  have hmod : b.bits % 8 ≠ 0 := by
    rw [← hcnt]
    exact fun e => h0 (BitVec.eq_of_toNat_eq e)
  refine ⟨rfl, rfl, ?_, ?_, ?_, herr, hcause⟩
  · change b.nbytes + 1 = (b.bits + 7) / 8
    omega
  · simp [hmod]
  · change ((padCount b.cnt).setWidth 3).toNat = (8 - b.bits % 8) % 8
    rw [padCount_low_toNat _ h0]
    omega

/-- R34 after a refused byte: the exception writes no data register, and a command that offers a byte finds bits held. -/
theorem errorInv_raiseIOError (c : Cause) (h : RunInv b) (h0 : b.cnt ≠ 0) : ErrorInv (raiseIOError c b) := by
  obtain ⟨hheld, hpadded, hpadn, -, -⟩ := h
  exact ⟨rfl, hheld, h0, hpadded, hpadn⟩

end Writes

/-- No command breaks the invariant of the phase it leaves the block in. -/
theorem CommandResult.keeps_blockInv {s t : State} {i : Instr} (r : CommandResult s i t) (hs : BlockInv s.block) :
    BlockInv t.block := by
  have ⟨hrun, _, _⟩ := hs
  cases r with
  | held => exact hs
  | waiting => exact hs
  | skipped => exact hs
  | bitHeld x hp h7 =>
    obtain ⟨hheld, hrest⟩ := hrun hp
    exact blockInv_of_run hp ⟨heldInv_bitHeld x hheld h7, hrest⟩
  | byteAccepted x as hp h7 =>
    obtain ⟨hheld, hrest⟩ := hrun hp
    exact blockInv_of_run hp ⟨heldInv_byteAccepted hheld h7, hrest⟩
  | byteRefused x c landed as hp h7 =>
    have h0 : s.block.cnt ≠ 0 := by simp [h7]
    exact blockInv_of_error rfl (errorInv_raiseIOError c (hrun hp) h0)
  | ended e hp h0 => exact blockInv_of_done rfl (doneInv_ended (hrun hp) h0)
  | flushAccepted e as hp h0 => exact blockInv_of_done rfl (doneInv_flushAccepted (hrun hp) h0)
  | flushRefused e c landed as hp h0 => exact blockInv_of_error rfl (errorInv_raiseIOError c (hrun hp) h0)

/-- Settles O36: the invariant holds at reset and every command keeps it. -/
theorem blockInvKeptByEveryStep : Obligations.BlockInvKeptByEveryStep := by
  unfold Obligations.BlockInvKeptByEveryStep
  intro s t hs h
  rcases step_block_cases h with e | e | ⟨i, r⟩
  · exact e ▸ blockInv_blockReset
  · exact e ▸ hs
  · exact r.keeps_blockInv hs

/-- Settles O35. -/
theorem blockInvAtReset : Obligations.BlockInvAtReset := blockInv_blockReset

end Sys2Proof.Machine
end

section
/-! SUPPORT. The bits in OUT and ACC under a shift that takes a bit in, and the law of one step about them (R32 I-e, I-g). -/

namespace Sys2Proof.Machine

/-- `SHL1(b)` puts the bit after the `n` low bits: none of them leaves the low `n + 1` (R20, R23). -/
theorem lowBits_accShl1 (a : Byte) (x : Bool) (n : Nat) (hn : n < 8) :
    lowBits (accShl1 a x) (n + 1) = lowBits a n ++ [x] := by
  unfold lowBits
  rw [List.range_succ, List.map_append, List.map_singleton]
  congr 1
  · refine List.map_congr_left fun i hi => ?_
    have hi : i < n := List.mem_range.1 hi
    rw [accShl1_getLsbD _ _ _ (by omega), if_neg (by omega)]
    congr 1
    omega
  · rw [accShl1_getLsbD _ _ _ (by omega), if_pos (by omega)]

theorem streamBits_append_singleton (out : List Byte) (v : Byte) :
    streamBits (out ++ [v]) = streamBits out ++ lowBits v 8 := by
  simp [streamBits]

/-- A held bit is appended to the bits inside. -/
theorem bitsInside_bitHeld (x : Bool) (s : State) (h7 : s.block.cnt ≠ 7) :
    bitsInside (takeCommand { s with block := { s.block with
      acc := accShl1 s.block.acc x, cnt := s.block.cnt + 1, bits := s.block.bits + 1 } }) = bitsInside s ++ [x] := by
  have hsucc : (s.block.cnt + 1).toNat = s.block.cnt.toNat + 1 := by bv_omega
  simp only [bitsInside, heldBits, takeCommand_out, takeCommand_block, hsucc]
  rw [lowBits_accShl1 _ _ _ (by omega), List.append_assoc]

/-- The bit that completes a byte is appended too: the seven held bits and it are the bits of the byte. -/
theorem bitsInside_byteAccepted (x : Bool) (s : State) (as : List SinkAnswer) (h7 : s.block.cnt = 7) :
    bitsInside (takeCommand { s with
      out := s.out ++ [accShl1 s.block.acc x], answers := as
      block := { s.block with acc := 0, cnt := 0, bits := s.block.bits + 1, nbytes := s.block.nbytes + 1 } }) =
      bitsInside s ++ [x] := by
  have hbyte : lowBits (accShl1 s.block.acc x) 8 = heldBits s.block ++ [x] := by
    rw [lowBits_accShl1 _ _ 7 (by omega), heldBits, h7]
    rfl
  have hnone : lowBits 0 (0 : BitVec 3).toNat = [] := rfl
  simp only [bitsInside, heldBits, takeCommand_out, takeCommand_block, streamBits_append_singleton, hnone]
  rw [hbyte, heldBits, List.append_nil, List.append_assoc]

/-- A BIT command that neither faults nor waits appends its bit. -/
theorem bitPlan_grows (x : Bool) (s : State) (as : List SinkAnswer) (hp : s.block.phase = .run)
    (hok : s.block.cnt ≠ 7 ∨ s.answers = .ok :: as) :
    ∃ t, perform (bitPlan x s.block) s = .next t ∧ bitsInside t = bitsInside s ++ [x] := by
  by_cases h7 : s.block.cnt = 7
  · have ha : s.answers = .ok :: as := hok.resolve_left (not_not_intro h7)
    rw [bitPlan_full _ _ h7, perform_offer_ok _ _ _ as hp ha]
    exact ⟨_, rfl, bitsInside_byteAccepted x s as h7⟩
  · rw [bitPlan_hold _ _ h7, perform_settle _ _ hp]
    exact ⟨_, rfl, bitsInside_bitHeld x s h7⟩

/-- Settles O18: a BIT command shifts its bit in behind the held bits, whether or not the byte then leaves. -/
theorem bitsInsideGrowByTheBitTaken : Obligations.BitsInsideGrowByTheBitTaken := by
  unfold Obligations.BitsInsideGrowByTheBitTaken
  intro s as hp hok
  simp only [exec_eq_perform, commandPlan]
  refine ⟨bitPlan_grows false s as hp hok, bitPlan_grows true s as hp hok, fun c => ?_⟩
  rw [skipPlan, perform_settle _ _ hp]
  exact ⟨_, rfl, rfl⟩

end Sys2Proof.Machine
end

section
/-! SUPPORT. What one command does to BITS, to NBYTES and OUT, and to the data path (10_state.md R23, R24, R25). -/

namespace Sys2Proof.Machine

/-- With bits held, END moves them up by 1 to 7 places (R135). -/
theorem flushShift_bounds {c : BitVec 3} (h0 : c ≠ 0) : 1 ≤ 8 - c.toNat ∧ 8 - c.toNat ≤ 7 := by
  bv_omega

section CommandResult
variable {s t : State} {i : Instr}

theorem CommandResult.bits_eq (r : CommandResult s i t) :
    t.block.bits = s.block.bits +
      (if (i = .bit0 ∨ i = .bit1) ∧ s.block.phase = .run ∧ t.pos = s.pos + 1 ∧ t.block.phase = .run then 1 else 0) := by
  cases r with
  | held _ hp => simp [hp]
  | waiting => simp
  | skipped => simp
  | bitHeld x hp => simp [bitCommand_isBit, hp]
  | byteAccepted x _ hp => simp [bitCommand_isBit, hp]
  | byteRefused => simp
  | ended => simp
  | flushAccepted => simp
  | flushRefused => simp

/-- The three ways a command can meet the sink (R25, R59). -/
theorem CommandResult.emission (r : CommandResult s i t) :
    (s.answers = .ok :: t.answers ∧ t.block.nbytes = s.block.nbytes + 1 ∧ ∃ v, t.out = s.out ++ [v]) ∨
    (t.answers = s.answers ∧ t.block.nbytes = s.block.nbytes ∧ t.out = s.out) ∨
    (∃ c landed v, s.answers = .fail c landed :: t.answers ∧ t.block.nbytes = s.block.nbytes ∧
      t.out = s.out ++ (if landed then [v] else [])) := by
  cases r with
  | held => exact .inr (.inl ⟨rfl, rfl, rfl⟩)
  | waiting => exact .inr (.inl ⟨rfl, rfl, rfl⟩)
  | skipped => exact .inr (.inl ⟨rfl, rfl, rfl⟩)
  | bitHeld => exact .inr (.inl ⟨rfl, rfl, rfl⟩)
  | ended => exact .inr (.inl ⟨rfl, rfl, rfl⟩)
  | byteAccepted _ _ _ _ ha => exact .inl ⟨ha, rfl, _, rfl⟩
  | flushAccepted _ _ _ _ ha => exact .inl ⟨ha, rfl, _, rfl⟩
  | byteRefused _ c landed _ _ _ ha => exact .inr (.inr ⟨c, landed, _, ha, rfl, rfl⟩)
  | flushRefused _ c landed _ _ _ ha => exact .inr (.inr ⟨c, landed, _, ha, rfl, rfl⟩)

/-- A command that uses a refusal ends in ERROR (R162). -/
theorem CommandResult.phase_of_refusal (r : CommandResult s i t) {c : Cause} {landed : Bool}
    (ha : s.answers = .fail c landed :: t.answers) : t.block.phase = .error := by
  cases r with
  | byteRefused => rfl
  | flushRefused => rfl
  | byteAccepted _ _ _ _ hok => simp [hok] at ha
  | flushAccepted _ _ _ _ hok => simp [hok] at ha
  | held => simp at ha
  | waiting => simp at ha
  | skipped => simp at ha
  | bitHeld => simp at ha
  | ended => simp at ha

theorem CommandResult.acc_cases (r : CommandResult s i t) :
    t.block.acc = s.block.acc ∨ t.block.acc = 0 ∨ ∃ b : Bool, t.block.acc = accShl1 s.block.acc b := by
  cases r with
  | bitHeld x => exact .inr (.inr ⟨x, rfl⟩)
  | byteAccepted => exact .inr (.inl rfl)
  | flushAccepted => exact .inr (.inl rfl)
  | held => exact .inl rfl
  | waiting => exact .inl rfl
  | skipped => exact .inl rfl
  | byteRefused => exact .inl rfl
  | ended => exact .inl rfl
  | flushRefused => exact .inl rfl

theorem CommandResult.out_cases (r : CommandResult s i t) :
    t.out = s.out ∨ (∃ b : Bool, t.out = s.out ++ [accShl1 s.block.acc b]) ∨
      ∃ k, 1 ≤ k ∧ k ≤ 7 ∧ t.out = s.out ++ [accShln s.block.acc k] := by
  cases r with
  | held => exact .inl rfl
  | waiting => exact .inl rfl
  | skipped => exact .inl rfl
  | bitHeld => exact .inl rfl
  | ended => exact .inl rfl
  | byteAccepted x => exact .inr (.inl ⟨x, rfl⟩)
  | byteRefused x _ landed =>
    cases landed
    · exact .inl (List.append_nil _)
    · exact .inr (.inl ⟨x, rfl⟩)
  | flushAccepted _ _ _ h0 =>
    obtain ⟨h1, h7⟩ := flushShift_bounds h0
    exact .inr (.inr ⟨_, h1, h7, rfl⟩)
  | flushRefused _ _ landed _ _ h0 =>
    obtain ⟨h1, h7⟩ := flushShift_bounds h0
    cases landed
    · exact .inl (List.append_nil _)
    · exact .inr (.inr ⟨_, h1, h7, rfl⟩)

end CommandResult

/-- Settles O20: BITS in every case of a command, at reset, and in a quiet step. -/
theorem bitsCountsCompletedBitCommands : Obligations.BitsCountsCompletedBitCommands := by
  unfold Obligations.BitsCountsCompletedBitCommands
  refine ⟨fun i s t h => (exec_result i s t h).bits_eq, fun s t h hr => ?_, fun s t h hr hi => ?_⟩
  · rw [eq_of_step_reset h hr]
    rfl
  · rw [eq_of_step_quiet h hr hi]
    rfl

/-- Settles O21: the three ways a command meets the sink; the length of OUT follows from them. -/
theorem nbytesCountsAcceptedBytes : Obligations.NbytesCountsAcceptedBytes := by
  unfold Obligations.NbytesCountsAcceptedBytes
  refine ⟨fun i s t h => (exec_result i s t h).emission, fun i s t h hlen => ?_, fun s t h hr => ?_,
    fun s t h hr hi => ?_⟩
  · have r := exec_result i s t h
    rcases r.emission with ⟨-, hn, v, ho⟩ | ⟨-, hn, ho⟩ | ⟨c, landed, v, ha, hn, ho⟩
    · simp [hn, ho, hlen]
    · simp [hn, ho, hlen]
    · cases landed
      · simp [hn, ho, hlen]
      · simp [hn, ho, hlen, r.phase_of_refusal ha]
  · rw [eq_of_step_reset h hr]
    rfl
  · rw [eq_of_step_quiet h hr hi]
    rfl

/-- Settles O23: ACC and OUT in every case of a command. -/
theorem dataPathHasThreeOperations : Obligations.DataPathHasThreeOperations := by
  unfold Obligations.DataPathHasThreeOperations
  intro i s t h
  exact ⟨(exec_result i s t h).acc_cases, (exec_result i s t h).out_cases⟩

end Sys2Proof.Machine
end

section
/-! SUPPORT. The step of the machine as the step of the block alone (10_state.md R37), and the values after reset (R35). -/

namespace Sys2Proof.Machine

/-- Settles O56: reset, no command, a command not accepted, and a command in RUN, which `perform_run` ties to the block's turn. -/
theorem stepIsTheBlocksOwnStep : Obligations.StepIsTheBlocksOwnStep := by
  unfold Obligations.StepIsTheBlocksOwnStep
  intro s
  rcases step_cases s with ⟨hr, e⟩ | ⟨hr, hi, e⟩ | ⟨hr, w, ws, hi, e⟩
  · refine ⟨_, _, rfl, e, ?_⟩
    simp [hr, blockStep_reset]
  · refine ⟨_, _, rfl, e, ?_⟩
    simp [hr, hi, presented, blockStep_quiet]
  · have hw : presented s = some w := by simp [presented, hi]
    rw [hr, hw, e, exec_eq_perform]
    by_cases hp : s.block.phase = .run
    · rw [blockStep_run _ _ _ hp]
      exact ⟨_, _, rfl, perform_run _ (hostTurn s) hp, rfl, rfl, rfl, rfl, rfl, rfl⟩
    · rw [blockStep_held _ _ _ hp]
      refine ⟨_, _, rfl, perform_held (hostTurn s) _ hp, ?_⟩
      simp

/-- Settles O28: each register of the reset block, as R35 lists it. -/
theorem resetValues : Obligations.ResetValues := by
  unfold Obligations.ResetValues
  exact ⟨rfl, rfl, rfl, rfl, rfl, rfl, rfl, rfl, rfl, rfl, fun _ => ⟨rfl, rfl, rfl⟩⟩

end Sys2Proof.Machine
end

section
/-! SUPPORT. What the status ports show (10_state.md R22, R28 to R31; 30_encoding.md R88 to R92). -/

namespace Sys2Proof.Machine

/-- With no command presented no byte is offered (R204). -/
theorem needEmit_idle (b : Block) (x : Inputs) (h : x.cmdValid = false) : needEmit b x = false := by
  simp [needEmit, h]

/-- Settles O53: without a command the handshakes read PHASE alone, and no status port reads ACC or CNT. -/
theorem accAndCntAreOnNoPort : Obligations.AccAndCntAreOnNoPort := by
  unfold Obligations.AccAndCntAreOnNoPort
  intro noise b a n x
  refine ⟨fun h => ?_, rfl, rfl, rfl, rfl, rfl, rfl, rfl⟩
  simp [outputs, cmdReady, outByte, outValid, needEmit_idle _ x h]

theorem phaseOfCode_phaseCode (p : Phase) : phaseOfCode (phaseCode p) = some p := by
  cases p <;> rfl

theorem errOfCode_errCode (e : ErrCode) : errOfCode (errCode e) = some e := by
  cases e <;> rfl

theorem phaseCode_ne_reserved (p : Phase) : phaseCode p ≠ 0b11 := by
  cases p <;> decide

theorem errCode_ne_reserved (e : ErrCode) : errCode e ≠ 2 ∧ errCode e ≠ 3 := by
  cases e <;> decide

/-- Settles O54: the codes read back, the reserved ones are never shown, and each port carries its register. -/
theorem statusPortsShowTheRegisters : Obligations.StatusPortsShowTheRegisters := by
  unfold Obligations.StatusPortsShowTheRegisters
  refine ⟨phaseOfCode_phaseCode, errOfCode_errCode, phaseCode_ne_reserved, errCode_ne_reserved, rfl, rfl, rfl, rfl, rfl,
    fun noise b x => ⟨rfl, rfl, rfl, rfl, rfl, BitVec.toNat_ofNat _ _, BitVec.toNat_ofNat _ _, fun hfits => ?_⟩⟩
  exact (BitVec.toNat_ofNat _ _).trans (Nat.mod_eq_of_lt hfits)

end Sys2Proof.Machine
end

section
/-! SUPPORT. The words of characters and the stream they make (30_encoding.md R83, R93, R94; 20_memory.md R51). -/

namespace Sys2Proof.Machine

@[simp] theorem fieldE_formatC (e : Bool) (c : Byte) : fieldE (formatC e c) = e := by
  rw [fieldE, formatC, BitVec.getLsbD_append]
  cases e <;> rfl

@[simp] theorem fieldC_formatC (e : Bool) (c : Byte) : fieldC (formatC e c) = c := by
  rw [fieldC, formatC, BitVec.setWidth_append_eq_right]

/-- A character's word decodes to the BIT command of the character's bit, or to SKIP (R83). -/
theorem decode_formatC_false (c : Byte) :
    decode (formatC false c) = if isBit c then bitCommand (bitVal c) else .skip c := by
  by_cases h0 : c = Config.code0
  · subst h0
    rfl
  · by_cases h1 : c = Config.code1
    · subst h1
      rfl
    · simp [decode, isBit, h0, h1]

theorem decode_endWord : decode endWord = .endStream 0 := rfl

theorem streamWords_cons (c : Byte) (s : List Byte) : streamWords (c :: s) = formatC false c :: streamWords s := rfl

/-- A character in front of a stream leaves it as well formed as it was (R51). -/
theorem wellFormedStream_char_cons (c : Byte) (rest : List Instr) :
    wellFormedStream (decode (formatC false c) :: rest) = wellFormedStream rest := by
  rw [decode_formatC_false]
  by_cases hc : isBit c
  · cases bitVal c <;> simp [hc, bitCommand, wellFormedStream, wellFormed]
  · have ⟨h0, h1⟩ : c ≠ Config.code0 ∧ c ≠ Config.code1 := by simpa [isBit] using hc
    simp [hc, wellFormedStream, wellFormed, h0, h1]

/-- Settles O5, by induction on the characters. -/
theorem characterStreamsAreWellFormed : Obligations.CharacterStreamsAreWellFormed := by
  unfold Obligations.CharacterStreamsAreWellFormed
  intro s
  induction s with
  | nil => rfl
  | cons c s ih => rw [streamWords_cons, List.map_cons, wellFormedStream_char_cons, ih]

end Sys2Proof.Machine
end

section
/-! SUPPORT. Runs of many steps, and what every step does to OUT, reads of OUT and POS, and asks of the sink (20_memory.md R52, R58;
10_state.md R30; 60_exceptions.md R161). -/

namespace Sys2Proof.Machine

/-- A run goes on where a shorter one ended. -/
theorem run_add (j : Nat) {k : Nat} {s t : State} (h : Sys2Proof.core.run k s = .next t) :
    Sys2Proof.core.run (k + j) s = Sys2Proof.core.run j t := by
  induction k generalizing s with
  | zero =>
    cases h
    rw [Nat.zero_add]
  | succ k ih =>
    obtain ⟨_, s', -, e, -⟩ := stepIsTheBlocksOwnStep s
    rw [run_succ _ _ _ e] at h
    rw [Nat.succ_add, run_succ _ _ _ e, ih h]

/-- What every step keeps, every run keeps. -/
theorem run_keeps {P : State → Prop} (hstep : ∀ s, P s → ∃ t, step s = .next t ∧ P t) (k : Nat) (s : State) (h : P s) :
    ∃ t, Sys2Proof.core.run k s = .next t ∧ P t := by
  induction k generalizing s with
  | zero => exact ⟨s, rfl, h⟩
  | succ k ih =>
    obtain ⟨s', e, h'⟩ := hstep s h
    rw [run_succ _ _ _ e]
    exact ih s' h'

/-- One step appends at most one byte to OUT (R52, R59). -/
theorem step_appends (s : State) : ∃ t tail, step s = .next t ∧ t.out = s.out ++ tail ∧ tail.length ≤ 1 := by
  obtain ⟨u, t, -, e, -, -, -, -, hout, -⟩ := stepIsTheBlocksOwnStep s
  refine ⟨t, _, e, hout, ?_⟩
  split
  · exact Option.length_toList_le
  · exact Nat.zero_le 1

/-- Settles O22, by induction on the steps. -/
theorem outOnlyGrows : Obligations.OutOnlyGrows := by
  unfold Obligations.OutOnlyGrows
  intro k
  induction k with
  | zero => exact fun s => ⟨s, [], rfl, (List.append_nil _).symm, Nat.le_refl 0⟩
  | succ k ih =>
    intro s
    obtain ⟨s', first, e, hfirst, hone⟩ := step_appends s
    obtain ⟨t, later, e', hlater, hk⟩ := ih s'
    refine ⟨t, first ++ later, (run_succ _ _ _ e).trans e', ?_, ?_⟩
    · rw [hlater, hfirst, List.append_assoc]
    · rw [List.length_append]
      omega

/-- Two states are equal when all they hold is. -/
theorem state_ext {s t : State} (hblock : s.block = t.block) (hpos : s.pos = t.pos) (hinput : s.input = t.input)
    (hout : s.out = t.out) (hanswers : s.answers = t.answers) (hrst : s.rst = t.rst) : s = t := by
  cases s
  cases t
  simp_all

/-- Settles O33: the block's own step takes neither OUT nor POS, so both states see one and the same turn of the block. -/
theorem stepReadsNeitherOutNorPos : Obligations.StepReadsNeitherOutNorPos := by
  unfold Obligations.StepReadsNeitherOutNorPos
  intro s t o p h
  obtain ⟨u, t₁, hu, e, hblock, hpos, hinput, hanswers, hout, hrst⟩ := stepIsTheBlocksOwnStep s
  obtain ⟨u', t', hu', e', hblock', hpos', hinput', hanswers', hout', hrst'⟩ :=
    stepIsTheBlocksOwnStep { s with out := o, pos := p }
  obtain rfl : u' = u := hu'.trans hu.symm
  obtain rfl : t₁ = t := by
    rw [e] at h
    cases h
    rfl
  refine ⟨_, t'.pos, hout, ?_, fun hr => ?_, fun hr => ?_⟩
  · rw [e']
    exact congrArg _ (state_ext (hblock'.trans hblock.symm) rfl (hinput'.trans hinput.symm) hout'
      (hanswers'.trans hanswers.symm) (hrst'.trans hrst.symm))
  · exact ⟨hpos'.trans (if_pos hr), hpos.trans (if_pos hr)⟩
  · have hr' : hostResets { s with out := o, pos := p } = false := hr
    rw [hpos, hpos', hr, hr']
    cases u'.taken
    · exact Nat.add_comm p s.pos
    · change p + 1 + s.pos = s.pos + 1 + p
      omega

/-- A command uses at most the next answer of the sink. -/
theorem CommandResult.sinkNeverFails {s t : State} {i : Instr} (r : CommandResult s i t) (hok : SinkNeverFails s) :
    SinkNeverFails t := by
  rcases r.emission with ⟨ha, -⟩ | ⟨ha, -⟩ | ⟨c, landed, v, ha, -⟩
  · exact fun a h => hok a (by simp [ha, h])
  · exact fun a h => hok a (by simp [← ha, h])
  · exact fun a h => hok a (by simp [ha, h])

/-- Only a refusal raises (R161). -/
theorem CommandResult.safe {s t : State} {i : Instr} (r : CommandResult s i t) (hok : SinkNeverFails s) (hs : Safe s) :
    Safe t := by
  cases r with
  | byteRefused x c landed as hp h7 ha => exact nomatch hok (.fail c landed) (by simp [ha])
  | flushRefused e c landed as hp h0 ha => exact nomatch hok (.fail c landed) (by simp [ha])
  | ended => exact nofun
  | flushAccepted => exact nofun
  | held => exact hs
  | waiting => exact hs
  | skipped => exact hs
  | bitHeld => exact hs
  | byteAccepted => exact hs

theorem step_keeps_safe (s : State) (h : SinkNeverFails s ∧ Safe s) :
    ∃ t, step s = .next t ∧ SinkNeverFails t ∧ Safe t := by
  obtain ⟨hok, hs⟩ := h
  rcases step_cases s with ⟨-, e⟩ | ⟨-, -, e⟩ | ⟨-, w, ws, -, e⟩
  · exact ⟨_, e, hok, nofun⟩
  · exact ⟨_, e, hok, hs⟩
  · obtain ⟨_, t, -, e', -⟩ := stepIsTheBlocksOwnStep s
    have r := exec_result (decode w) (hostTurn s) t (e.symm.trans e')
    exact ⟨t, e', r.sinkNeverFails hok, r.safe hok hs⟩

/-- Settles O37: every step keeps a state safe and its sink one that never fails. -/
theorem sinkThatNeverFailsIsSafe : Obligations.SinkThatNeverFailsIsSafe := by
  unfold Obligations.SinkThatNeverFailsIsSafe
  exact fun k s hok hs => run_keeps step_keeps_safe k s ⟨hok, hs⟩

end Sys2Proof.Machine
end

section
/-! SUPPORT. Bits, the numbers they stand for, and the bits of the bytes of OUT (10_state.md R20; 20_memory.md R53 to R56). -/

namespace Sys2Proof.Machine

@[simp] theorem bitsOf_append (s s' : List Byte) : bitsOf (s ++ s') = bitsOf s ++ bitsOf s' := by
  simp [bitsOf]

@[simp] theorem bitsOf_singleton (c : Byte) : bitsOf [c] = if isBit c then [bitVal c] else [] := by
  by_cases hc : isBit c <;> simp [bitsOf, hc]

theorem bitsValue_append_singleton (g : List Bool) (x : Bool) : bitsValue (g ++ [x]) = 2 * bitsValue g + x.toNat := by
  simp [bitsValue]

theorem bitsValue_append_zeros (g : List Bool) (n : Nat) :
    bitsValue (g ++ List.replicate n false) = bitsValue g * 2 ^ n := by
  induction n with
  | zero => simp
  | succ n ih =>
    rw [List.replicate_succ', ← List.append_assoc, bitsValue_append_singleton, ih, Nat.pow_succ,
      Bool.toNat_false]
    ring

@[simp] theorem length_lowBits (a : Byte) (n : Nat) : (lowBits a n).length = n := by
  simp [lowBits]

theorem lowBits_getElem? (a : Byte) {n i : Nat} (h : i < n) : (lowBits a n)[i]? = some (a.getLsbD (n - 1 - i)) := by
  simp [lowBits, h]

/-- `k` zeros shifted in stand after the `n` low bits, and none of those is lost while there is room (R130, R134). -/
theorem lowBits_shiftLeft (a : Byte) {n k : Nat} (h : n + k ≤ 8) :
    lowBits (a <<< k) (n + k) = lowBits a n ++ List.replicate k false := by
  induction k with
  | zero => simp
  | succ k ih =>
    have hshift : a <<< (k + 1) = accShl1 (a <<< k) false := by simp [accShl1, zext8, BitVec.shiftLeft_add]
    rw [hshift, ← Nat.add_assoc, lowBits_accShl1 _ _ _ (by omega), ih (by omega), List.replicate_succ',
      List.append_assoc]

/-- The bits of a byte are the binary digits of its number. -/
theorem bitsValue_lowBits (v : Byte) : bitsValue (lowBits v 8) = v.toNat := by
  revert v
  decide

/-- The weights of R55. -/
theorem toNat_eq_weighted_bits (v : Byte) :
    v.toNat = (v.getLsbD 7).toNat * 128 + (v.getLsbD 6).toNat * 64 + (v.getLsbD 5).toNat * 32 +
      (v.getLsbD 4).toNat * 16 + (v.getLsbD 3).toNat * 8 + (v.getLsbD 2).toNat * 4 + (v.getLsbD 1).toNat * 2 +
      (v.getLsbD 0).toNat * 1 := by
  revert v
  decide

@[simp] theorem streamBits_cons (v : Byte) (out : List Byte) : streamBits (v :: out) = lowBits v 8 ++ streamBits out := rfl

@[simp] theorem length_streamBits (out : List Byte) : (streamBits out).length = 8 * out.length := by
  induction out with
  | nil => rfl
  | cons v out ih =>
    rw [streamBits_cons, List.length_append, length_lowBits, ih, List.length_cons]
    omega

/-- R147 for any bytes: bit `i` of the stream stands in byte `i / 8`, at position `7 - i % 8`. -/
theorem streamBits_getElem? (out : List Byte) (i : Nat) : (streamBits out)[i]? = recoverBit out i := by
  induction out generalizing i with
  | nil => rfl
  | cons v out ih =>
    rw [streamBits_cons]
    by_cases hi : i < 8
    · rw [List.getElem?_append_left (by simpa using hi), lowBits_getElem? v hi]
      simp [recoverBit, Nat.div_eq_of_lt hi, Nat.mod_eq_of_lt hi]
    · obtain ⟨j, rfl⟩ : ∃ j, i = j + 8 := ⟨i - 8, by omega⟩
      rw [List.getElem?_append_right (by simp), length_lowBits, Nat.add_sub_cancel, ih]
      simp [recoverBit]

section StreamOfBits
variable {out : List Byte} {m : List Bool} {n : Nat}

/-- R55: a byte all of whose bits lie in `m` has the value of those eight bits. -/
theorem fullByte_value (h : streamBits out = m ++ List.replicate n false) {k : Nat} (hk : 8 * k + 7 < m.length) :
    ∃ v, out[k]? = some v ∧
      v.toNat = (m[8 * k]?.getD false).toNat * 128 + (m[8 * k + 1]?.getD false).toNat * 64 +
          (m[8 * k + 2]?.getD false).toNat * 32 + (m[8 * k + 3]?.getD false).toNat * 16 +
          (m[8 * k + 4]?.getD false).toNat * 8 + (m[8 * k + 5]?.getD false).toNat * 4 +
          (m[8 * k + 6]?.getD false).toNat * 2 + (m[8 * k + 7]?.getD false).toNat * 1 := by
  have hlen : 8 * out.length = m.length + n := by simpa using congrArg List.length h
  have hkout : k < out.length := by omega
  have hbit (j : Nat) (hj : j < 8) : m[8 * k + j]? = some (out[k].getLsbD (7 - j)) := by
    rw [← List.getElem?_append_left (l₂ := List.replicate n false) (by omega), ← h, streamBits_getElem?, recoverBit,
      show (8 * k + j) / 8 = k by omega, show (8 * k + j) % 8 = j by omega, List.getElem?_eq_getElem hkout]
    rfl
  refine ⟨out[k], List.getElem?_eq_getElem hkout, ?_⟩
  rw [show m[8 * k]? = some (out[k].getLsbD 7) from hbit 0 (by omega), hbit 1 (by omega), hbit 2 (by omega),
    hbit 3 (by omega), hbit 4 (by omega), hbit 5 (by omega), hbit 6 (by omega), hbit 7 (by omega)]
  exact toNat_eq_weighted_bits out[k]

/-- R56: the last byte holds the bits of `m` after its full groups, moved up by the `n` zeros. -/
theorem lastByte_value (h : streamBits out = m ++ List.replicate n false) (hn : n < 8) (hr : m.length % 8 ≠ 0) :
    ∃ v, out[m.length / 8]? = some v ∧ v.toNat = bitsValue (m.drop (8 * (m.length / 8))) * 2 ^ n ∧
      ∀ j, j < n → v.getLsbD j = false := by
  have hlen : 8 * out.length = m.length + n := by simpa using congrArg List.length h
  obtain ⟨init, v, rfl⟩ : ∃ init v, out = init ++ [v] := by
    rcases List.eq_nil_or_concat out with rfl | ⟨init, v, e⟩
    · exact absurd hlen (by rw [List.length_nil]; omega)
    · exact ⟨init, v, by simpa using e⟩
  have hinit : init.length = m.length / 8 := by
    rw [List.length_append, List.length_singleton] at hlen
    omega
  have hbits : lowBits v 8 = m.drop (8 * (m.length / 8)) ++ List.replicate n false := by
    rw [streamBits_append_singleton] at h
    rw [← List.drop_append_of_le_length (by omega), ← h, List.drop_left' (by rw [length_streamBits, hinit])]
  have hvalue : v.toNat = bitsValue (m.drop (8 * (m.length / 8))) * 2 ^ n := by
    rw [← bitsValue_lowBits, hbits, bitsValue_append_zeros]
  refine ⟨v, by simp [← hinit], hvalue, fun j hj => ?_⟩
  have : ¬ n ≤ j := by omega
  rw [← BitVec.testBit_toNat, hvalue, Nat.testBit_mul_two_pow]
  simp [this]

end StreamOfBits

end Sys2Proof.Machine
end

section
/-! SUPPORT. A conversion from its beginning, over any number of characters, to END (42_whole_conversion.md R140, R141). -/

namespace Sys2Proof.Machine

theorem step_presented {s : State} {w : CommandWord} {ws : List CommandWord} (hr : s.rst = []) (hi : s.input = w :: ws) :
    step s = exec (decode w) s := by
  have hturn : hostTurn s = s := by
    rw [hostTurn, hr, List.tail_nil, ← hr]
  rw [step_command s w ws (by simp [hostResets, hr]) hi, hturn]

/-- A conversion after the characters `cs`, the words `ws` still to come, with a sink that accepts `f` bytes in all before it
answers `rest`. -/
structure AfterChars (cs : List Byte) (ws : List CommandWord) (f : Nat) (rest : List SinkAnswer) (s : State) : Prop where
  phase : s.block.phase = .run
  inv : BlockInv s.block
  bits : s.block.bits = (bitsOf cs).length
  inside : bitsInside s = bitsOf cs
  pos : s.pos = cs.length
  input : s.input = ws
  answers : s.answers = List.replicate (f - (bitsOf cs).length / 8) .ok ++ rest
  rst : s.rst = []

theorem afterChars_beginConversion (ws : List CommandWord) (f : Nat) (rest : List SinkAnswer) (s : State) :
    AfterChars [] ws f rest (beginConversion ws (List.replicate f .ok ++ rest) s) where
  phase := rfl
  inv := blockInv_blockReset
  bits := rfl
  inside := rfl
  pos := rfl
  input := rfl
  answers := rfl
  rst := rfl

/-- A conversion after the characters `cs` and END. -/
structure AfterEnd (cs : List Byte) (ws : List CommandWord) (t : State) : Prop where
  phase : t.block.phase = .done
  inv : BlockInv t.block
  bits : t.block.bits = (bitsOf cs).length
  out : streamBits t.out = bitsOf cs ++ List.replicate ((8 - (bitsOf cs).length % 8) % 8) false
  pos : t.pos = cs.length + 1
  input : t.input = ws

section AfterChars
variable {cs : List Byte} {ws : List CommandWord} {f : Nat} {rest : List SinkAnswer} {s : State}

theorem AfterChars.cnt_eq (h : AfterChars cs ws f rest s) : s.block.cnt.toNat = (bitsOf cs).length % 8 := by
  obtain ⟨⟨hcnt, -⟩, -⟩ := h.inv.1 h.phase
  rw [hcnt, h.bits]

/-- While the sink still has a byte to accept, its next answer is `ok`. -/
theorem AfterChars.answers_ok (h : AfterChars cs ws f rest s) (hf : (bitsOf cs).length / 8 < f) :
    s.answers = .ok :: (List.replicate (f - ((bitsOf cs).length / 8 + 1)) .ok ++ rest) := by
  rw [h.answers, show f - (bitsOf cs).length / 8 = f - ((bitsOf cs).length / 8 + 1) + 1 by omega]
  rfl

theorem AfterChars.skip {w : CommandWord} (h : AfterChars cs (w :: ws) f rest s) {c : Byte} (hc : isBit c = false) :
    ∃ t, exec (.skip c) s = .next t ∧ AfterChars (cs ++ [c]) ws f rest t := by
  refine ⟨takeCommand s, ?_, ?_⟩
  · rw [exec_eq_perform, commandPlan, skipPlan, perform_settle _ _ h.phase]
  · have hbits : bitsOf (cs ++ [c]) = bitsOf cs := by simp [hc]
    exact {
      phase := h.phase
      inv := h.inv
      bits := hbits ▸ h.bits
      inside := hbits ▸ h.inside
      pos := by simp [h.pos]
      input := by simp [h.input]
      answers := hbits ▸ h.answers
      rst := h.rst }

theorem AfterChars.bit {w : CommandWord} (h : AfterChars cs (w :: ws) f rest s) {c : Byte} (hc : isBit c = true)
    (hf : (bitsOf (cs ++ [c])).length / 8 ≤ f) :
    ∃ t, exec (bitCommand (bitVal c)) s = .next t ∧ AfterChars (cs ++ [c]) ws f rest t := by
  have hbits : bitsOf (cs ++ [c]) = bitsOf cs ++ [bitVal c] := by simp [hc]
  have hlen : (bitsOf (cs ++ [c])).length = (bitsOf cs).length + 1 := by simp [hbits]
  have hexec : exec (bitCommand (bitVal c)) s = perform (bitPlan (bitVal c) s.block) s := by
    rw [exec_eq_perform]
    cases bitVal c <;> rfl
  have hcnt := h.cnt_eq
  rw [hlen] at hf
  by_cases h7 : s.block.cnt = 7
  · have hmod : (bitsOf cs).length % 8 = 7 := by simp [← hcnt, h7]
    have e := hexec
    rw [bitPlan_full _ _ h7, perform_offer_ok _ _ _ _ h.phase (h.answers_ok (by omega))] at e
    exact ⟨_, e, {
      phase := h.phase
      inv := (exec_result _ _ _ e).keeps_blockInv h.inv
      bits := by simp [hbits, h.bits]
      inside := by rw [bitsInside_byteAccepted _ _ _ h7, h.inside, hbits]
      pos := by simp [h.pos]
      input := by simp [h.input]
      answers := by
        rw [hlen, show ((bitsOf cs).length + 1) / 8 = (bitsOf cs).length / 8 + 1 by omega]
        rfl
      rst := h.rst }⟩
  · have hmod : (bitsOf cs).length % 8 ≠ 7 := by rw [← hcnt]; bv_omega
    have e := hexec
    rw [bitPlan_hold _ _ h7, perform_settle _ _ h.phase] at e
    exact ⟨_, e, {
      phase := h.phase
      inv := (exec_result _ _ _ e).keeps_blockInv h.inv
      bits := by simp [hbits, h.bits]
      inside := by rw [bitsInside_bitHeld _ _ h7, h.inside, hbits]
      pos := by simp [h.pos]
      input := by simp [h.input]
      answers := by
        rw [hlen, show ((bitsOf cs).length + 1) / 8 = (bitsOf cs).length / 8 by omega]
        exact h.answers
      rst := h.rst }⟩

theorem AfterChars.step_char {c : Byte} (h : AfterChars cs (formatC false c :: ws) f rest s)
    (hf : (bitsOf (cs ++ [c])).length / 8 ≤ f) : ∃ t, step s = .next t ∧ AfterChars (cs ++ [c]) ws f rest t := by
  rw [step_presented h.rst h.input, decode_formatC_false]
  cases hc : isBit c
  · exact h.skip hc
  · exact h.bit hc hf

/-- Any number of further characters, the sink accepting the bytes they complete. -/
theorem AfterChars.run_chars (cs' : List Byte) (h : AfterChars cs (charWords cs' ++ ws) f rest s)
    (hf : (bitsOf (cs ++ cs')).length / 8 ≤ f) :
    ∃ t, Sys2Proof.core.run cs'.length s = .next t ∧ AfterChars (cs ++ cs') ws f rest t := by
  induction cs' generalizing cs s with
  | nil => exact ⟨s, rfl, by simpa [charWords] using h⟩
  | cons c cs' ih =>
    rw [List.append_cons] at hf ⊢
    obtain ⟨s', e, h'⟩ := h.step_char (by simp only [bitsOf_append, List.length_append] at hf ⊢; omega)
    obtain ⟨t, e', ht⟩ := ih h' hf
    exact ⟨t, (run_succ _ _ _ e).trans e', ht⟩

/-- END, the sink accepting the byte it flushes. -/
theorem AfterChars.step_end (h : AfterChars cs (endWord :: ws) f rest s) (hf : ((bitsOf cs).length + 7) / 8 ≤ f) :
    ∃ t, step s = .next t ∧ AfterEnd cs ws t := by
  have hcnt := h.cnt_eq
  have hexec : step s = perform (endPlan s.block) s := by
    rw [step_presented h.rst h.input, decode_endWord, exec_eq_perform, commandPlan]
  by_cases h0 : s.block.cnt = 0
  · have hmod : (bitsOf cs).length % 8 = 0 := by simp [← hcnt, h0]
    have e := hexec
    rw [endPlan_empty _ h0, perform_settle _ _ h.phase] at e
    have hout : streamBits s.out = bitsOf cs := by
      simpa [bitsInside, heldBits, h0, lowBits] using h.inside
    exact ⟨_, e, {
      phase := rfl
      inv := blockInvKeptByEveryStep s _ h.inv e
      bits := h.bits
      out := by simp [hout, hmod]
      pos := by simp [h.pos]
      input := by simp [h.input] }⟩
  · have hmod : (bitsOf cs).length % 8 ≠ 0 := by rw [← hcnt]; bv_omega
    have e := hexec
    rw [endPlan_held _ h0, perform_offer_ok _ _ _ _ h.phase (h.answers_ok (by omega))] at e
    exact ⟨_, e, {
      phase := rfl
      inv := blockInvKeptByEveryStep s _ h.inv e
      bits := h.bits
      out := by
        have hpad : (8 - (bitsOf cs).length % 8) % 8 = 8 - s.block.cnt.toNat := by omega
        rw [takeCommand_out, streamBits_append_singleton, hpad, ← h.inside, bitsInside, heldBits, List.append_assoc,
          ← lowBits_shiftLeft _ (by omega), Nat.add_sub_cancel' (by omega)]
      pos := by simp [h.pos]
      input := by simp [h.input] }⟩

end AfterChars

/-- A whole conversion whose emissions the sink accepts. -/
theorem run_conversion (cs : List Byte) (f : Nat) (rest : List SinkAnswer) (s : State)
    (hf : ((bitsOf cs).length + 7) / 8 ≤ f) :
    ∃ t, Sys2Proof.core.run (cs.length + 1) (beginConversion (streamWords cs) (List.replicate f .ok ++ rest) s) = .next t ∧
      AfterEnd cs [] t := by
  obtain ⟨s', e, h⟩ := (afterChars_beginConversion (streamWords cs) f rest s).run_chars cs (by simp; omega)
  obtain ⟨t, e', ht⟩ := h.step_end hf
  exact ⟨t, (run_add 1 e).trans (run_succ 0 _ _ e'), ht⟩

/-- Settles O42: the bits of OUT are the meaningful bits and then the padding, and each byte of OUT is read off them. -/
theorem outBytesOfAConversion : Obligations.OutBytesOfAConversion := by
  unfold Obligations.OutBytesOfAConversion
  intro s0 s as hok hlen
  obtain ⟨t, e, ht⟩ := run_conversion s as.length [] s0 hlen
  rw [List.append_nil, ← List.eq_replicate_of_mem hok] at e
  have hout : 8 * t.out.length = (bitsOf s).length + (8 - (bitsOf s).length % 8) % 8 := by
    simpa using congrArg List.length ht.out
  refine ⟨t, e, ht.phase, ht.bits, by omega, fun k hk => fullByte_value ht.out hk, fun hr => ?_⟩
  have hpad : (8 - (bitsOf s).length % 8) % 8 = 8 - (bitsOf s).length % 8 := by omega
  exact lastByte_value (hpad ▸ ht.out) (by omega) hr

end Sys2Proof.Machine
end

section
/-! SUPPORT. Words and their commands: every word is its two fields, and decoding and encoding undo each other (30_encoding.md R80,
R83, R84); every command and every step answers (R87). -/

namespace Sys2Proof.Machine

/-- The two fields make up the whole word (R80). -/
theorem formatC_fields (w : CommandWord) : formatC (fieldE w) (fieldC w) = w := by
  refine BitVec.eq_of_getLsbD_eq fun i hi => ?_
  rw [formatC, BitVec.getLsbD_append]
  by_cases h8 : i < 8
  · simp [fieldC, h8]
  · obtain rfl : i = 8 := by omega
    simp [fieldE]

theorem exists_eq_formatC (w : CommandWord) : ∃ e c, w = formatC e c :=
  ⟨fieldE w, fieldC w, (formatC_fields w).symm⟩

/-- Every word with `e = 1` is END (R83). -/
theorem decode_formatC_true (c : Byte) : decode (formatC true c) = .endStream c := by
  simp [decode]

theorem isBit_iff (c : Byte) : isBit c = true ↔ c = Config.code0 ∨ c = Config.code1 := by
  simp [isBit]

/-- SKIP has the words of the characters that are no bits (R84). -/
theorem wellFormed_skip (c : Byte) : wellFormed (.skip c) = !isBit c := by
  simp [wellFormed, isBit, bne]

theorem wellFormed_bitCommand (x : Bool) : wellFormed (bitCommand x) = true := by
  cases x <;> rfl

theorem encode_bitCommand {c : Byte} (hc : isBit c = true) : encode (bitCommand (bitVal c)) = formatC false c := by
  rcases (isBit_iff c).1 hc with rfl | rfl <;> rfl

theorem decode_encode {i : Instr} (hi : wellFormed i = true) : decode (encode i) = i := by
  cases i with
  | bit0 => rfl
  | bit1 => rfl
  | skip c =>
    have hc : isBit c = false := by simpa [wellFormed_skip] using hi
    simp [encode, decode_formatC_false, hc]
  | endStream c => exact decode_formatC_true c

theorem wellFormed_decode_and_encode_decode (w : CommandWord) :
    wellFormed (decode w) = true ∧ encode (decode w) = w := by
  obtain ⟨e, c, rfl⟩ := exists_eq_formatC w
  cases e with
  | true =>
    rw [decode_formatC_true]
    exact ⟨rfl, rfl⟩
  | false =>
    rw [decode_formatC_false]
    cases hc : isBit c with
    | true => exact ⟨wellFormed_bitCommand _, encode_bitCommand hc⟩
    | false => exact ⟨by simp [wellFormed_skip, hc], rfl⟩

/-- Settles O3: the constructors of a command one way, the two fields of a word the other. -/
theorem decodeAndEncodeAgree : Obligations.DecodeAndEncodeAgree := by
  unfold Obligations.DecodeAndEncodeAgree
  exact ⟨fun _ => decode_encode, wellFormed_decode_and_encode_decode⟩

/-- Settles O1: the decoder run on each word. -/
theorem specWordsDecode : Obligations.SpecWordsDecode := by
  unfold Obligations.SpecWordsDecode
  decide

/-- Settles O30: what `step_command` says where the host's list is empty or its head is `false`, and O3 for the word of `i`. -/
theorem stepRunsTheDecodedCommand : Obligations.StepRunsTheDecodedCommand := by
  unfold Obligations.StepRunsTheDecodedCommand
  intro s w ws r hin
  refine ⟨fun hr => step_presented hr hin, fun hr => ?_, fun i hi hw hr => ?_⟩
  · rw [step_command s w ws (by simp [hostResets, hr]) hin, hostTurn, hr, List.tail_cons]
  · rw [step_presented hr hin, hw, decode_encode hi]

/-- Settles O7: the rule of neither command reads the character. -/
theorem ignoredFieldHasNoEffect : Obligations.IgnoredFieldHasNoEffect := by
  unfold Obligations.IgnoredFieldHasNoEffect
  intro c c' s
  simp only [exec_eq_perform, commandPlan, and_self]

/-- Carrying out a plan always answers a next state (R87, R166). -/
theorem perform_next (p : Plan) (s : State) : ∃ t, perform p s = .next t := by
  rcases perform_cases s p with ⟨-, e⟩ | ⟨-, _, -, e⟩ | ⟨-, _, _, -, -, e⟩ | ⟨-, _, _, _, -, -, e⟩ |
    ⟨-, _, _, _, _, _, -, -, e⟩ <;> exact ⟨_, e⟩

/-- Settles O32: every command is the carrying out of its plan, and every step is one of the block (O56). -/
theorem everyStepAnswersANextState : Obligations.EveryStepAnswersANextState := by
  unfold Obligations.EveryStepAnswersANextState
  refine ⟨fun i s => ?_, fun s => ?_⟩
  · rw [exec_eq_perform]
    exact perform_next _ s
  · obtain ⟨_, t, -, e, -⟩ := stepIsTheBlocksOwnStep s
    exact ⟨t, e⟩

end Sys2Proof.Machine
end

section
/-! SUPPORT. The words of each mnemonic and the class each word is in (30_encoding.md R84, R85). -/

namespace Sys2Proof.Machine

theorem classesOf_encode {i : Instr} (hi : wellFormed i = true) : classesOf (encode i) = [mnemonic i] := by
  cases i with
  | bit0 => exact Laws.EncodedClass.bit0 hi
  | bit1 => exact Laws.EncodedClass.bit1 hi
  | skip c => exact Laws.EncodedClass.skip c hi
  | endStream c => exact Laws.EncodedClass.endStream c hi

theorem toNat_formatC (e : Bool) (c : Byte) : (formatC e c).toNat = e.toNat * 256 + c.toNat := by
  rw [formatC, BitVec.toNat_append, BitVec.toNat_ofBool, ← Nat.shiftLeft_add_eq_or_of_lt c.isLt, Nat.shiftLeft_eq]

/-- The mnemonic of a word, by the word's number (R84). -/
theorem mnemonic_decode (w : CommandWord) :
    mnemonic (decode w) =
      if 0x100 ≤ w.toNat then .END else if w.toNat = 0x30 then .BIT0 else if w.toNat = 0x31 then .BIT1 else .SKIP := by
  obtain ⟨e, c, rfl⟩ := exists_eq_formatC w
  rw [toNat_formatC]
  cases e with
  | true => simp [decode_formatC_true, mnemonic]
  | false =>
    have hc : ¬ 0x100 ≤ c.toNat := Nat.not_le.2 c.isLt
    cases hbit : isBit c with
    | true =>
      rcases (isBit_iff c).1 hbit with rfl | rfl <;> rfl
    | false =>
      have ⟨h0, h1⟩ : c ≠ Config.code0 ∧ c ≠ Config.code1 := by simpa [isBit] using hbit
      have h0 : c.toNat ≠ 0x30 := by bv_omega
      have h1 : c.toNat ≠ 0x31 := by bv_omega
      simp [decode_formatC_false, hbit, mnemonic, hc, h0, h1]

section MnemonicRanges
variable (w : CommandWord)

theorem mnemonic_decode_eq_BIT0_iff : mnemonic (decode w) = .BIT0 ↔ w.toNat = 0x30 := by
  grind [mnemonic_decode]

theorem mnemonic_decode_eq_BIT1_iff : mnemonic (decode w) = .BIT1 ↔ w.toNat = 0x31 := by
  grind [mnemonic_decode]

theorem mnemonic_decode_eq_SKIP_iff :
    mnemonic (decode w) = .SKIP ↔ w.toNat ≤ 0x02F ∨ (0x032 ≤ w.toNat ∧ w.toNat ≤ 0x0FF) := by
  grind [mnemonic_decode]

theorem mnemonic_decode_eq_END_iff : mnemonic (decode w) = .END ↔ 0x100 ≤ w.toNat := by
  grind [mnemonic_decode]

end MnemonicRanges

/-- The number of words of a mnemonic is the number of elements of the set of their numbers. -/
theorem countP_mnemonic {m : Mnemonic} (S : Finset ℕ) (hS : ∀ n ∈ S, n < 512)
    (h : ∀ w : CommandWord, mnemonic (decode w) = m ↔ w.toNat ∈ S) :
    ((List.range 512).countP fun n => mnemonic (decode (BitVec.ofNat 9 n)) == m) = S.card := by
  have hmem (n : ℕ) (hn : n < 512) : mnemonic (decode (BitVec.ofNat 9 n)) = m ↔ n ∈ S := by
    rw [h, BitVec.toNat_ofNat, Nat.mod_eq_of_lt hn]
  have hfilter : S = (Finset.range 512).filter fun n => mnemonic (decode (BitVec.ofNat 9 n)) = m := by
    ext n
    rw [Finset.mem_filter, Finset.mem_range]
    exact ⟨fun hn => ⟨hS n hn, (hmem n (hS n hn)).2 hn⟩, fun ⟨hn, hm⟩ => (hmem n hn).1 hm⟩
  rw [hfilter, ← Nat.count_eq_card_filter_range, Nat.count]
  rfl

/-- Settles O2: a word lies in the class of its command because it is the word of that command (O3); the words of a mnemonic are
those of its range of numbers, which is then counted. -/
theorem commandSetPartitionsTheWords : Obligations.CommandSetPartitionsTheWords := by
  unfold Obligations.CommandSetPartitionsTheWords
  refine ⟨fun w => ?_, fun w => ⟨?_, ?_, mnemonic_decode_eq_SKIP_iff w, mnemonic_decode_eq_END_iff w⟩, ?_, ?_, ?_, ?_⟩
  · obtain ⟨hwf, hw⟩ := wellFormed_decode_and_encode_decode w
    rw [← classesOf_encode hwf, hw]
  · rw [mnemonic_decode_eq_BIT0_iff]
    exact BitVec.toNat_inj (y := 0x030)
  · rw [mnemonic_decode_eq_BIT1_iff]
    exact BitVec.toNat_inj (y := 0x031)
  · exact countP_mnemonic {0x30} (by simp) (by simpa using mnemonic_decode_eq_BIT0_iff)
  · exact countP_mnemonic {0x31} (by simp) (by simpa using mnemonic_decode_eq_BIT1_iff)
  · refine (countP_mnemonic (((Finset.range 0x100).erase 0x30).erase 0x31) ?_ fun w => ?_).trans (by simp)
    · simp
      omega
    · rw [mnemonic_decode_eq_SKIP_iff]
      simp
      omega
  · refine (countP_mnemonic (Finset.Ico 0x100 512) (by simp) fun w => ?_).trans (Nat.card_Ico _ _)
    rw [mnemonic_decode_eq_END_iff, Finset.mem_Ico, and_iff_left w.isLt]

end Sys2Proof.Machine
end

section
/-! SUPPORT. Text handed over as UTF-8 bytes (30_encoding.md R82, R93 to R95). -/

namespace Sys2Proof.Machine

/-- A character of 7 bits is one byte, its code. -/
theorem charBytes_ascii {ch : Char} (h : ch.toNat ≤ 127) : charBytes ch = [BitVec.ofNat 8 ch.toNat] := by
  rw [charBytes, String.utf8EncodeChar]
  exact congrArg _ (if_pos h)

/-- Every byte of a longer coding has its top bit set. -/
theorem le_of_mem_charBytes {ch : Char} (h : ¬ ch.toNat ≤ 127) : ∀ c ∈ charBytes ch, 128 ≤ c.toNat := by
  rw [charBytes, String.utf8EncodeChar]
  simp only [show ¬ ch.val.toNat ≤ 127 from h, if_false]
  split_ifs <;> simp <;> omega

/-- Bytes with the top bit set carry no meaningful bit. -/
theorem bitsOf_eq_nil {s : List Byte} (h : ∀ c ∈ s, 128 ≤ c.toNat) : bitsOf s = [] := by
  have hfilter : s.filter isBit = [] := by
    refine List.filter_eq_nil_iff.2 fun c hc hbit => ?_
    have := h c hc
    rcases (isBit_iff c).1 hbit with rfl | rfl <;> simp at this
  rw [bitsOf, hfilter, List.map_nil]

/-- Codes of 7 bits stay apart in a byte. -/
theorem ofNat_toNat_beq {ch d : Char} (h : ch.toNat ≤ 127) (hd : d.toNat ≤ 127) :
    (BitVec.ofNat 8 ch.toNat == BitVec.ofNat 8 d.toNat) = (ch == d) := by
  rw [Bool.eq_iff_iff, beq_iff_eq, beq_iff_eq, ← BitVec.toNat_inj, ← Char.toNat_inj, BitVec.toNat_ofNat,
    BitVec.toNat_ofNat, Nat.mod_eq_of_lt (by omega), Nat.mod_eq_of_lt (by omega)]

theorem bitsOf_charBytes (ch : Char) :
    bitsOf (charBytes ch) = if ch == '0' || ch == '1' then [ch == '1'] else [] := by
  by_cases h : ch.toNat ≤ 127
  · rw [charBytes_ascii h, bitsOf_singleton, ← ofNat_toNat_beq h (d := '0') (by decide),
      ← ofNat_toNat_beq h (d := '1') (by decide)]
    rfl
  · rw [bitsOf_eq_nil (le_of_mem_charBytes h), if_neg]
    intro hbit
    have hch : ch = '0' ∨ ch = '1' := by simpa using hbit
    rcases hch with rfl | rfl <;> exact h (by decide)

/-- Settles O6, by induction on the text. -/
theorem utf8TextKeepsItsBits : Obligations.Utf8TextKeepsItsBits := by
  unfold Obligations.Utf8TextKeepsItsBits
  intro cs
  induction cs with
  | nil => rfl
  | cons ch cs ih =>
    rw [List.flatMap_cons, bitsOf_append, bitsOf_charBytes, ih, List.filter_cons]
    split <;> rfl

/-- Settles O4: each text coded and its words written out. -/
theorem workedEncodings : Obligations.WorkedEncodings := by
  unfold Obligations.WorkedEncodings
  decide

end Sys2Proof.Machine
end

section
/-! SUPPORT. The rules of BIT0 and BIT1, said once for the bit they take, and of SKIP (40_bit_commands.md R110 to R113). -/

namespace Sys2Proof.Machine

section Shift
variable (a : Byte)

theorem accShl1_false : accShl1 a false = a <<< 1 := by
  simp [accShl1, zext8]

theorem accShl1_true : accShl1 a true = a <<< 1 ||| 1 := rfl

/-- The bit that enters is the parity of the byte. -/
theorem accShl1_toNat_mod_two (x : Bool) : (accShl1 a x).toNat % 2 = x.toNat := by
  have hx : x.toNat ≤ 1 := Bool.toNat_le x
  rw [accShl1_toNat]
  omega

theorem getLsbD_seven_eq_false_iff : a.getLsbD 7 = false ↔ a.toNat < 128 := by
  have hmsb : a.getLsbD 7 = decide (128 ≤ a.toNat) := a.msb_eq_getLsbD_last.symm.trans a.msb_eq_decide
  rw [hmsb, decide_eq_false_iff_not, not_le]

/-- With bit 7 of ACC clear the shift drops no set bit (R113). -/
theorem accShl1_toNat_of_bit_seven_clear (x : Bool) (h : a.getLsbD 7 = false) :
    (accShl1 a x).toNat = a.toNat * 2 + x.toNat := by
  have ha : a.toNat < 128 := (getLsbD_seven_eq_false_iff a).1 h
  rw [accShl1_toNat]
  omega

end Shift

section Rules
variable (s : State)

theorem exec_bitCommand (x : Bool) : exec (bitCommand x) s = perform (bitPlan x s.block) s := by
  rw [exec_eq_perform]
  cases x <;> rfl

/-- Not accepted outside RUN (R196). -/
theorem exec_held (i : Instr) (hp : s.block.phase ≠ .run) : exec i s = .next s := by
  rw [exec_eq_perform, perform_held _ _ hp]

theorem exec_skip_run (c : Byte) (hp : s.block.phase = .run) : exec (.skip c) s = .next (takeCommand s) := by
  rw [exec_eq_perform, commandPlan, skipPlan, perform_settle _ _ hp]

theorem exec_bitCommand_hold (x : Bool) (hp : s.block.phase = .run) (h7 : s.block.cnt ≠ 7) :
    exec (bitCommand x) s = .next (takeCommand { s with block := { s.block with
      acc := accShl1 s.block.acc x, cnt := s.block.cnt + 1, bits := s.block.bits + 1 } }) := by
  rw [exec_bitCommand, bitPlan_hold _ _ h7, perform_settle _ _ hp]

theorem exec_bitCommand_accepted (x : Bool) (as : List SinkAnswer) (hp : s.block.phase = .run) (h7 : s.block.cnt = 7)
    (ha : s.answers = .ok :: as) :
    exec (bitCommand x) s = .next (takeCommand { s with
      out := s.out ++ [accShl1 s.block.acc x], answers := as
      block := { s.block with acc := 0, cnt := 0, bits := s.block.bits + 1, nbytes := s.block.nbytes + 1 } }) := by
  rw [exec_bitCommand, bitPlan_full _ _ h7, perform_offer_ok _ _ _ as hp ha]

theorem exec_bitCommand_refused (x : Bool) (c : Cause) (landed : Bool) (as : List SinkAnswer)
    (hp : s.block.phase = .run) (h7 : s.block.cnt = 7) (ha : s.answers = .fail c landed :: as) :
    exec (bitCommand x) s = .next (takeCommand { s with
      out := s.out ++ (if landed then [accShl1 s.block.acc x] else []), answers := as
      block := raiseIOError c s.block }) := by
  rw [exec_bitCommand, bitPlan_full _ _ h7, perform_offer_fail _ _ _ c landed as hp ha]

end Rules

/-- Settles O8: each clause is the rule of a BIT command for the bit 0. -/
theorem bit0FollowsItsRule : Obligations.Bit0FollowsItsRule := by
  unfold Obligations.Bit0FollowsItsRule
  simp only [← accShl1_false]
  exact ⟨rfl, fun s hp h7 => exec_bitCommand_hold s false hp h7,
    fun s as hp h7 ha => exec_bitCommand_accepted s false as hp h7 ha,
    fun s c landed as hp h7 ha => exec_bitCommand_refused s false c landed as hp h7 ha,
    fun s hp => exec_held s .bit0 hp,
    fun a => ⟨accShl1_toNat_mod_two a false, accShl1_toNat_of_bit_seven_clear a false⟩⟩

/-- Settles O9: each clause is the rule of a BIT command for the bit 1. -/
theorem bit1FollowsItsRule : Obligations.Bit1FollowsItsRule := by
  unfold Obligations.Bit1FollowsItsRule
  simp only [← accShl1_true]
  exact ⟨rfl, fun s hp h7 => exec_bitCommand_hold s true hp h7,
    fun s as hp h7 ha => exec_bitCommand_accepted s true as hp h7 ha,
    fun s c landed as hp h7 ha => exec_bitCommand_refused s true c landed as hp h7 ha,
    fun s hp => exec_held s .bit1 hp,
    fun a => ⟨accShl1_toNat_mod_two a true, accShl1_toNat_of_bit_seven_clear a true⟩⟩

/-- Settles O10: a character that is no bit decodes to SKIP, and SKIP only takes the command. -/
theorem skipFollowsItsRule : Obligations.SkipFollowsItsRule := by
  unfold Obligations.SkipFollowsItsRule
  refine ⟨fun c h0 h1 => ?_, fun c s hp => exec_skip_run s c hp, fun c s hp => exec_held s (.skip c) hp⟩
  have hc : isBit c ≠ true := fun h => ((isBit_iff c).1 h).elim h0 h1
  exact (decode_formatC_false c).trans (if_neg hc)

/-- I-d when one more bit is held (R113). The counters play no part in it, so they are taken as in a first group. -/
theorem accShl1_lt_two_pow (x : Bool) {b : Block} (hacc : b.acc.toNat < 2 ^ b.cnt.toNat) (h7 : b.cnt ≠ 7) :
    (accShl1 b.acc x).toNat < 2 ^ (b.cnt + 1).toNat := by
  have hfirst : HeldInv { b with bits := b.cnt.toNat, nbytes := 0 } :=
    ⟨(Nat.mod_eq_of_lt b.cnt.isLt).symm, (Nat.div_eq_of_lt b.cnt.isLt).symm, hacc⟩
  obtain ⟨-, -, h⟩ := heldInv_bitHeld x hfirst h7
  exact h

/-- I-d keeps bit 7 of ACC clear, since at most 7 bits are held (R113). -/
theorem bit_seven_clear_of_lt {b : Block} (hacc : b.acc.toNat < 2 ^ b.cnt.toNat) : b.acc.getLsbD 7 = false := by
  have hpow : 2 ^ b.cnt.toNat ≤ 2 ^ 7 := Nat.pow_le_pow_right (by decide) (by omega)
  exact (getLsbD_seven_eq_false_iff _).2 (hacc.trans_le hpow)

/-- A bit held under I-d doubles ACC and is added to it, and I-d holds again. -/
theorem exec_bitCommand_doubles (x : Bool) {s : State} (hp : s.block.phase = .run)
    (hacc : s.block.acc.toNat < 2 ^ s.block.cnt.toNat) (h7 : s.block.cnt ≠ 7) :
    ∃ t, exec (bitCommand x) s = .next t ∧ t.block.acc.toNat = s.block.acc.toNat * 2 + x.toNat ∧
      t.block.acc.toNat < 2 ^ t.block.cnt.toNat :=
  ⟨_, exec_bitCommand_hold s x hp h7, accShl1_toNat_of_bit_seven_clear _ x (bit_seven_clear_of_lt hacc),
    accShl1_lt_two_pow x hacc h7⟩

/-- Settles O16: under I-d bit 7 of ACC is clear, and the shift is then an exact doubling. -/
theorem shiftLosesNoBit : Obligations.ShiftLosesNoBit := by
  unfold Obligations.ShiftLosesNoBit
  intro s hp hacc
  have hclear := bit_seven_clear_of_lt hacc
  refine ⟨hclear, ?_, fun h7 =>
    ⟨exec_bitCommand_doubles false hp hacc h7, exec_bitCommand_doubles true hp hacc h7⟩⟩
  rw [← accShl1_false]
  exact accShl1_toNat_of_bit_seven_clear _ false hclear

end Sys2Proof.Machine
end

section
/-! SUPPORT. A group of eight BIT commands, from any ACC to its byte (40_bit_commands.md R114). -/

namespace Sys2Proof.Machine

/-- The word of a BIT command (R84). -/
def bitWord (x : Bool) : CommandWord := if x then 0x031 else 0x030

theorem decode_bitWord (x : Bool) : decode (bitWord x) = bitCommand x := by
  cases x <;> rfl

/-- A byte is the byte of its own bits. -/
theorem byteOf_lowBits (v : Byte) : byteOf (lowBits v 8) = v := by
  rw [byteOf, bitsValue_lowBits, BitVec.ofNat_toNat, BitVec.setWidth_eq]

/-- The state `t` inside a group that began in `s`: the bits `g` are held, nothing was emitted, the words `ws` are still to come. -/
structure InGroup (s : State) (g : List Bool) (ws : List CommandWord) (t : State) : Prop where
  phase : t.block.phase = .run
  cnt : t.block.cnt.toNat = g.length
  held : heldBits t.block = g
  nbytes : t.block.nbytes = s.block.nbytes
  out : t.out = s.out
  answers : t.answers = s.answers
  input : t.input = ws
  rst : t.rst = []

/-- A group begins with CNT = 0, whatever is in ACC. -/
theorem inGroup_nil {s : State} (hp : s.block.phase = .run) (h0 : s.block.cnt = 0) (hr : s.rst = []) :
    InGroup s [] s.input s where
  phase := hp
  cnt := by simp [h0]
  held := by simp [heldBits, h0, lowBits]
  nbytes := rfl
  out := rfl
  answers := rfl
  input := rfl
  rst := hr

section InGroup
variable {s t : State} {g : List Bool} {ws : List CommandWord}

/-- The command that a group in `t` takes next. -/
theorem InGroup.step_eq {x : Bool} (h : InGroup s g (bitWord x :: ws) t) : step t = exec (bitCommand x) t := by
  rw [step_presented h.rst h.input, decode_bitWord]

theorem InGroup.step_hold {x : Bool} (h : InGroup s g (bitWord x :: ws) t) (hg : g.length < 7) :
    ∃ u, step t = .next u ∧ InGroup s (g ++ [x]) ws u := by
  have hcnt := h.cnt
  have h7 : t.block.cnt ≠ 7 := by bv_omega
  have hsucc : (t.block.cnt + 1).toNat = t.block.cnt.toNat + 1 := by bv_omega
  refine ⟨_, h.step_eq.trans (exec_bitCommand_hold t x h.phase h7), ?_⟩
  exact {
    phase := h.phase
    cnt := by rw [takeCommand_block, hsucc, hcnt, List.length_append, List.length_singleton]
    held := by
      simp only [heldBits, takeCommand_block, hsucc]
      rw [lowBits_accShl1 _ _ _ (by omega), ← heldBits, h.held]
    nbytes := h.nbytes
    out := h.out
    answers := h.answers
    input := by simp [h.input]
    rst := h.rst }

/-- Further bits of the group, up to the seventh. -/
theorem InGroup.run_hold (g' : List Bool) (h : InGroup s g (g'.map bitWord ++ ws) t) (hg : (g ++ g').length ≤ 7) :
    ∃ u, Sys2Proof.core.run g'.length t = .next u ∧ InGroup s (g ++ g') ws u := by
  induction g' generalizing g t with
  | nil => exact ⟨t, rfl, by simpa using h⟩
  | cons x g' ih =>
    rw [List.append_cons] at hg ⊢
    obtain ⟨t', e, h'⟩ := h.step_hold (by simp only [List.length_append, List.length_singleton] at hg; omega)
    obtain ⟨u, e', hu⟩ := ih h' hg
    exact ⟨u, (run_succ _ _ _ e).trans e', hu⟩

/-- The eighth bit: the byte is made of the seven held bits and it. -/
theorem InGroup.step_full {x : Bool} {as : List SinkAnswer} (h : InGroup s g (bitWord x :: ws) t) (hg : g.length = 7)
    (ha : s.answers = .ok :: as) :
    ∃ u, step t = .next u ∧ u.out = s.out ++ [byteOf (g ++ [x])] ∧ u.block.acc = 0 ∧ u.block.cnt = 0 ∧
      u.block.nbytes = s.block.nbytes + 1 ∧ u.input = ws := by
  have h7 : t.block.cnt = 7 := BitVec.eq_of_toNat_eq (h.cnt.trans hg)
  have hbyte : byteOf (g ++ [x]) = accShl1 t.block.acc x := by
    rw [← h.held, heldBits, h7, ← lowBits_accShl1 _ _ _ (by decide)]
    exact byteOf_lowBits _
  refine ⟨_, h.step_eq.trans (exec_bitCommand_accepted t x as h.phase h7 (h.answers.trans ha)), ?_⟩
  simp [hbyte, h.out, h.nbytes, h.input]

end InGroup

/-- Settles O17: seven bits are held, the eighth completes the byte, and none of the eight bits of the byte is an old bit of ACC. -/
theorem groupByteForgetsOldAcc : Obligations.GroupByteForgetsOldAcc := by
  unfold Obligations.GroupByteForgetsOldAcc
  intro s g ws as hp h0 hr hlen hin ha
  obtain ⟨g, x, rfl⟩ : ∃ g' x, g = g' ++ [x] := by
    rcases List.eq_nil_or_concat g with rfl | ⟨g', x, e⟩
    · cases hlen
    · exact ⟨g', x, by simpa using e⟩
  have hg : g.length = 7 := by simpa using hlen
  have hwords : s.input = g.map bitWord ++ bitWord x :: ws := by
    rw [hin, List.map_append, List.append_assoc]
    rfl
  obtain ⟨t, e, h⟩ := (hwords ▸ inGroup_nil hp h0 hr).run_hold g hg.le
  obtain ⟨u, e', hu⟩ := h.step_full hg ha
  rw [hg] at e
  exact ⟨u, (run_add 1 e).trans (run_succ 0 _ _ e'), hu⟩

end Sys2Proof.Machine
end

section
/-! SUPPORT. What each command leaves alone (40_bit_commands.md R110 to R112; 41_end_flush.md R130; 20_memory.md R52). -/

namespace Sys2Proof.Machine

theorem mnemonic_bitCommand (x : Bool) : mnemonic (bitCommand x) = if x then .BIT1 else .BIT0 := by
  cases x <;> rfl

theorem mnemonic_bitCommand_ne_END (x : Bool) : mnemonic (bitCommand x) ≠ .END := by
  cases x <;> simp [mnemonic_bitCommand]

theorem mnemonic_bitCommand_ne_SKIP (x : Bool) : mnemonic (bitCommand x) ≠ .SKIP := by
  cases x <;> simp [mnemonic_bitCommand]

/-- An appended byte changes no read but the one at its own index. -/
theorem getElem?_append_of_ne_length (out tail : List Byte) (ht : tail.length ≤ 1) {a : Nat} (ha : a ≠ out.length) :
    (out ++ tail)[a]? = out[a]? := by
  rcases Nat.lt_or_gt_of_ne ha with hlt | hgt
  · exact List.getElem?_append_left hlt
  · rw [List.getElem?_eq_none (by simp only [List.length_append]; omega), List.getElem?_eq_none (by omega)]

section CommandResult
variable {s t : State} {i : Instr}

theorem CommandResult.rst_eq (r : CommandResult s i t) : t.rst = s.rst := by
  cases r <;> rfl

/-- A command appends at most one byte (R52, R59). -/
theorem CommandResult.out_appends (r : CommandResult s i t) : ∃ tail, t.out = s.out ++ tail ∧ tail.length ≤ 1 := by
  rcases r.emission with ⟨-, -, v, ho⟩ | ⟨-, -, ho⟩ | ⟨-, landed, v, -, -, ho⟩
  · exact ⟨[v], ho, le_rfl⟩
  · exact ⟨[], by simpa using ho, Nat.zero_le 1⟩
  · exact ⟨_, ho, by cases landed <;> simp⟩

theorem CommandResult.readOut_eq (r : CommandResult s i t) {a : Nat} (ha : a ≠ s.out.length) :
    readOut t a = readOut s a := by
  obtain ⟨tail, ho, ht⟩ := r.out_appends
  rw [readOut, readOut, ho, getElem?_append_of_ne_length _ _ ht ha]

theorem CommandResult.padding_eq (r : CommandResult s i t) (hi : mnemonic i ≠ .END) :
    t.block.padded = s.block.padded ∧ t.block.padn = s.block.padn := by
  cases r with
  | ended => exact absurd rfl hi
  | flushAccepted => exact absurd rfl hi
  | flushRefused => exact absurd rfl hi
  | held | waiting | skipped | bitHeld | byteAccepted | byteRefused => exact ⟨rfl, rfl⟩

theorem CommandResult.skip_frame (r : CommandResult s i t) (hi : mnemonic i = .SKIP) :
    t.block = s.block ∧ t.out = s.out ∧ t.answers = s.answers := by
  cases r with
  | held | waiting | skipped => exact ⟨rfl, rfl, rfl⟩
  | bitHeld x | byteAccepted x | byteRefused x => exact absurd hi (mnemonic_bitCommand_ne_SKIP x)
  | ended | flushAccepted | flushRefused => cases hi

theorem CommandResult.bits_frame (r : CommandResult s i t) (hi : mnemonic i = .END ∨ mnemonic i = .SKIP) :
    t.block.bits = s.block.bits := by
  have hbit : ¬ (i = .bit0 ∨ i = .bit1) := by
    rintro (rfl | rfl) <;> simp [mnemonic] at hi
  simp [r.bits_eq, hbit]

/-- Where no answer of the sink is used, no byte is stored or counted. -/
theorem CommandResult.no_emission (r : CommandResult s i t) (ha : t.answers = s.answers) :
    t.out = s.out ∧ t.block.nbytes = s.block.nbytes := by
  rcases r.emission with ⟨hok, -⟩ | ⟨-, hn, ho⟩ | ⟨_, _, _, hfail, -⟩
  · simp [ha] at hok
  · exact ⟨ho, hn⟩
  · simp [ha] at hfail

/-- Only a BIT command that completes a byte and an END that finds bits held ask the sink (R161). -/
theorem CommandResult.answers_eq_or (r : CommandResult s i t) :
    t.answers = s.answers ∨ (mnemonic i ≠ .END ∧ s.block.cnt = 7) ∨ (mnemonic i = .END ∧ s.block.cnt ≠ 0) := by
  cases r with
  | byteAccepted x _ _ h7 | byteRefused x _ _ _ _ h7 => exact .inr (.inl ⟨mnemonic_bitCommand_ne_END x, h7⟩)
  | flushAccepted _ _ _ h0 | flushRefused _ _ _ _ _ h0 => exact .inr (.inr ⟨rfl, h0⟩)
  | held | waiting | skipped | bitHeld | ended => exact .inl rfl

theorem CommandResult.answers_frame (r : CommandResult s i t)
    (hi : ((i = .bit0 ∨ i = .bit1) ∧ s.block.cnt ≠ 7) ∨ (mnemonic i = .END ∧ s.block.cnt = 0)) :
    t.answers = s.answers := by
  rcases r.answers_eq_or with h | ⟨hne, h7⟩ | ⟨hend, h0⟩
  · exact h
  · rcases hi with ⟨-, h⟩ | ⟨h, -⟩
    · exact absurd h7 h
    · exact absurd h hne
  · rcases hi with ⟨rfl | rfl, -⟩ | ⟨-, h⟩
    · cases hend
    · cases hend
    · exact absurd h h0

/-- Without a refusal nothing of the exception is written, and the phase leaves RUN by END alone. -/
theorem CommandResult.no_exception (r : CommandResult s i t) (hf : ∀ c landed, s.answers ≠ .fail c landed :: t.answers) :
    t.block.errcode = s.block.errcode ∧ t.block.cause = s.block.cause ∧
      (t.block.phase = s.block.phase ∨ (mnemonic i = .END ∧ s.block.phase = .run ∧ t.block.phase = .done)) := by
  cases r with
  | held | waiting | skipped | bitHeld | byteAccepted => exact ⟨rfl, rfl, .inl rfl⟩
  | ended _ hp | flushAccepted _ _ hp => exact ⟨rfl, rfl, .inr ⟨rfl, hp, rfl⟩⟩
  | byteRefused _ c landed _ _ _ ha | flushRefused _ c landed _ _ _ ha => exact absurd ha (hf c landed)

end CommandResult

/-- Settles O19: each clause of the frame in every case of a command. -/
theorem commandsLeaveTheRest : Obligations.CommandsLeaveTheRest := by
  unfold Obligations.CommandsLeaveTheRest
  intro i s t h
  have r := exec_result i s t h
  refine ⟨r.rst_eq, fun a ha => r.readOut_eq ha, r.padding_eq, r.skip_frame, r.bits_frame,
    fun ha => (r.no_emission ha).1, fun hi => ?_, r.no_exception⟩
  exact ⟨r.answers_frame hi, r.no_emission (r.answers_frame hi)⟩

end Sys2Proof.Machine
end

section
/-! SUPPORT. The rule of END case by case, the byte it flushes, and the end of a conversion (41_end_flush.md R130 to R136). -/

namespace Sys2Proof.Machine

/-- `PADN <- k[2:0]`, as a number cut to 3 bits (R130). -/
theorem padCount_low (n : BitVec 3) : (padCount n).setWidth 3 = BitVec.ofNat 3 (8 - n.toNat) := by
  revert n
  decide

section Rules
variable (s : State) (c : Byte)

theorem exec_endStream : exec (.endStream c) s = perform (endPlan s.block) s :=
  exec_eq_perform (.endStream c) s

theorem exec_endStream_empty (hp : s.block.phase = .run) (h0 : s.block.cnt = 0) :
    exec (.endStream c) s = .next (takeCommand { s with block := { s.block with
      padded := false, padn := 0, phase := .done } }) := by
  rw [exec_endStream, endPlan_empty _ h0, perform_settle _ _ hp]

theorem exec_endStream_accepted (as : List SinkAnswer) (hp : s.block.phase = .run) (h0 : s.block.cnt ≠ 0)
    (ha : s.answers = .ok :: as) :
    exec (.endStream c) s = .next (takeCommand { s with
      out := s.out ++ [s.block.acc <<< (8 - s.block.cnt.toNat)], answers := as
      block := { s.block with
        nbytes := s.block.nbytes + 1, padded := true, padn := BitVec.ofNat 3 (8 - s.block.cnt.toNat)
        acc := 0, cnt := 0, phase := .done } }) := by
  rw [exec_endStream, endPlan_held _ h0, perform_offer_ok _ _ _ as hp ha, padCount_low]

theorem exec_endStream_refused (e : Cause) (landed : Bool) (as : List SinkAnswer) (hp : s.block.phase = .run)
    (h0 : s.block.cnt ≠ 0) (ha : s.answers = .fail e landed :: as) :
    exec (.endStream c) s = .next (takeCommand { s with
      out := s.out ++ (if landed then [s.block.acc <<< (8 - s.block.cnt.toNat)] else []), answers := as
      block := raiseIOError e s.block }) := by
  rw [exec_endStream, endPlan_held _ h0, perform_offer_fail _ _ _ e landed as hp ha]

end Rules

/-- Settles O11: each clause is one case of the rule. -/
theorem endFollowsItsRule : Obligations.EndFollowsItsRule := by
  unfold Obligations.EndFollowsItsRule
  exact ⟨decode_formatC_true, fun c s hp h0 => exec_endStream_empty s c hp h0,
    fun c s as hp h0 ha => exec_endStream_accepted s c as hp h0 ha,
    fun c s e landed as hp h0 ha => exec_endStream_refused s c e landed as hp h0 ha,
    fun c s hp => exec_held s (.endStream c) hp⟩

/-- Settles O15: a zero ACC stays zero under the shift of the flush. -/
theorem zeroBitsFlushToZeroByte : Obligations.ZeroBitsFlushToZeroByte := by
  unfold Obligations.ZeroBitsFlushToZeroByte
  refine ⟨fun c s as hp h0 hacc ha => ⟨_, exec_endStream_accepted s c as hp h0 ha, ?_, rfl⟩,
    fun c s hp h0 => ⟨_, exec_endStream_empty s c hp h0, rfl, rfl⟩⟩
  simp [hacc]

section FlushedByte
variable (b : Block)

/-- The flushed byte is the held bits, oldest first, and then the padding (R131). -/
theorem lowBits_flushedByte :
    lowBits (b.acc <<< (8 - b.cnt.toNat)) 8 = heldBits b ++ List.replicate (8 - b.cnt.toNat) false := by
  have hsum : b.cnt.toNat + (8 - b.cnt.toNat) = 8 := by omega
  simpa only [hsum, heldBits] using lowBits_shiftLeft b.acc hsum.le

/-- R56 and R134: the number of the held bits, moved up by the padding. -/
theorem toNat_flushedByte :
    (b.acc <<< (8 - b.cnt.toNat)).toNat = bitsValue (heldBits b) * 2 ^ (8 - b.cnt.toNat) := by
  rw [← bitsValue_lowBits, lowBits_flushedByte, bitsValue_append_zeros]

/-- Under I-d the flush moves no set bit out of the byte (R134). -/
theorem toNat_flushedByte_of_lt (hacc : b.acc.toNat < 2 ^ b.cnt.toNat) :
    (b.acc <<< (8 - b.cnt.toNat)).toNat = b.acc.toNat * 2 ^ (8 - b.cnt.toNat) := by
  have hfits : b.acc.toNat * 2 ^ (8 - b.cnt.toNat) < 2 ^ 8 := by
    calc b.acc.toNat * 2 ^ (8 - b.cnt.toNat)
      _ < 2 ^ b.cnt.toNat * 2 ^ (8 - b.cnt.toNat) := Nat.mul_lt_mul_of_pos_right hacc (Nat.two_pow_pos _)
      _ = 2 ^ 8 := by rw [← Nat.pow_add, Nat.add_sub_cancel' (by omega)]
  rw [BitVec.toNat_shiftLeft, Nat.shiftLeft_eq, Nat.mod_eq_of_lt hfits]

end FlushedByte

/-- Settles O13: nothing held, and the byte of the held bits, whose padding count fits in PADN. -/
theorem flushedByteByCount : Obligations.FlushedByteByCount := by
  unfold Obligations.FlushedByteByCount
  refine fun c s hp => ⟨fun h0 => ⟨_, exec_endStream_empty s c hp h0, rfl, rfl, rfl, rfl⟩, fun as h0 ha =>
    ⟨_, _, exec_endStream_accepted s c as hp h0 ha, rfl, rfl, ?_, rfl, lowBits_flushedByte s.block⟩⟩
  obtain ⟨-, hle⟩ := flushShift_bounds h0
  exact (BitVec.toNat_ofNat _ _).trans (Nat.mod_eq_of_lt (Nat.lt_succ_of_le hle))

/-- Settles O14: the number of the flushed byte, and the exact product under I-d. -/
theorem flushedByteValue : Obligations.FlushedByteValue := by
  unfold Obligations.FlushedByteValue
  exact fun c s as hp h0 ha => ⟨_, _, exec_endStream_accepted s c as hp h0 ha, rfl, toNat_flushedByte s.block,
    toNat_flushedByte_of_lt s.block⟩

/-- An END that is taken ends the conversion, in DONE or by the exception (R136). -/
theorem CommandResult.phase_of_end {s t : State} {i : Instr} (r : CommandResult s i t) (hi : mnemonic i = .END)
    (hp : s.block.phase = .run) (hpos : t.pos = s.pos + 1) : t.block.phase = .done ∨ t.block.phase = .error := by
  cases r with
  | ended | flushAccepted => exact .inl rfl
  | flushRefused => exact .inr rfl
  | held _ h => exact absurd hp h
  | waiting => exact absurd hpos (Nat.ne_of_lt (Nat.lt_succ_self _))
  | skipped => cases hi
  | bitHeld x | byteAccepted x | byteRefused x => exact absurd hi (mnemonic_bitCommand_ne_END x)

/-- Outside RUN a step is a reset, which reopens the block, or leaves the registers as they are (R165, R196). -/
theorem step_outside_run {s t : State} (h : step s = .next t) (hp : s.block.phase ≠ .run) :
    (hostResets s = true ∧ t.block.phase = .run) ∨ t.block = s.block := by
  rcases step_cases s with ⟨hr, -⟩ | ⟨hr, hi, -⟩ | ⟨-, w, ws, -, e⟩
  · rw [eq_of_step_reset h hr]
    exact .inl ⟨hr, rfl⟩
  · rw [eq_of_step_quiet h hr hi]
    exact .inr rfl
  · rw [e, exec_held (hostTurn s) _ hp] at h
    cases h
    exact .inr rfl

/-- A step outside RUN reaches RUN or stays in its phase, so it reaches no third phase (R28). -/
theorem phase_ne_of_step_outside_run {s t : State} {p : Phase} (h : step s = .next t) (hp : s.block.phase ≠ .run)
    (hrun : .run ≠ p) (hs : s.block.phase ≠ p) : t.block.phase ≠ p := by
  rcases step_outside_run h hp with ⟨-, ht⟩ | hb
  · rwa [ht]
  · rwa [hb]

/-- Settles O27: the cases of END, and the two things a step can be outside RUN. -/
theorem onlyResetReopens : Obligations.OnlyResetReopens := by
  unfold Obligations.OnlyResetReopens
  refine ⟨fun c s t hp h hpos => (exec_result _ s t h).phase_of_end rfl hp hpos, fun i s hp => exec_held s i hp,
    fun s t h hp ht => ?_, fun s t h hp => phase_ne_of_step_outside_run h (by simp [hp]) nofun (by simp [hp]),
    fun s t h hp => phase_ne_of_step_outside_run h (by simp [hp]) nofun (by simp [hp])⟩
  rcases step_outside_run h hp with ⟨hr, -⟩ | hb
  · exact hr
  · exact absurd (hb ▸ ht) hp

/-- A conversion that took no bit has counted and stored nothing (R133). -/
theorem AfterEnd.of_no_bit {cs : List Byte} {ws : List CommandWord} {t : State} (ht : AfterEnd cs ws t)
    (hcs : bitsOf cs = []) :
    t.block.bits = 0 ∧ t.block.nbytes = 0 ∧ t.block.padded = false ∧ t.block.padn = 0 ∧ t.block.errcode = .none ∧
      t.out = [] := by
  have hbits : t.block.bits = 0 := by rw [ht.bits, hcs, List.length_nil]
  have hlen : 8 * t.out.length = 0 := by simpa [hcs] using congrArg List.length ht.out
  obtain ⟨-, -, hbytes, hpadded, hpadn, herr, -⟩ := ht.inv.2.1 ht.phase
  rw [hbits] at hbytes hpadded hpadn
  exact ⟨hbits, hbytes, by simpa using hpadded, BitVec.eq_of_toNat_eq hpadn, herr, List.length_eq_zero_iff.1 (by omega)⟩

/-- Settles O41: a sink that need accept no byte lets the characters and END pass, and an END that holds nothing does not ask it. -/
theorem streamWithNoBitEmitsNothing : Obligations.StreamWithNoBitEmitsNothing := by
  unfold Obligations.StreamWithNoBitEmitsNothing
  intro s0 s as hs
  obtain ⟨s', e, h⟩ := (afterChars_beginConversion (streamWords s) 0 as s0).run_chars s (by simp [hs])
  obtain ⟨t, e', ht⟩ := h.step_end (by simp [hs])
  have h0 : s'.block.cnt = 0 := BitVec.eq_of_toNat_eq (by simp [h.cnt_eq, hs])
  have hexec : exec (.endStream 0) s' = .next t := by rw [← e', step_presented h.rst h.input, decode_endWord]
  have hanswers : t.answers = as := by
    rw [(exec_result _ _ _ hexec).answers_frame (.inr ⟨rfl, h0⟩), h.answers, Nat.zero_sub]
    rfl
  obtain ⟨hbits, hbytes, hpadded, hpadn, herr, hout⟩ := ht.of_no_bit hs
  exact ⟨t, (run_add 1 e).trans (run_succ 0 _ _ e'), ht.phase, hbits, hbytes, hpadded, hpadn, herr, hout, hanswers⟩

end Sys2Proof.Machine
end

section
/-! SUPPORT. The bits of the bytes of `pack`, and its laws that follow from them (42_whole_conversion.md R142 to R147). -/

namespace Sys2Proof.Machine

/-- One more digit of a group enters as `SHL1` takes a bit in (R23). -/
theorem byteOf_append_singleton (g : List Bool) (x : Bool) : byteOf (g ++ [x]) = accShl1 (byteOf g) x := by
  refine BitVec.eq_of_toNat_eq ?_
  rw [accShl1_toNat, byteOf, byteOf, bitsValue_append_singleton, BitVec.toNat_ofNat, BitVec.toNat_ofNat]
  have hx : x.toNat ≤ 1 := Bool.toNat_le x
  omega

/-- The low bits of the byte of a group are the group. -/
theorem lowBits_byteOf {g : List Bool} (hg : g.length ≤ 8) : lowBits (byteOf g) g.length = g := by
  induction g using List.reverseRecOn with
  | nil => rfl
  | append_singleton g x ih =>
    rw [List.length_append, List.length_singleton] at hg ⊢
    rw [byteOf_append_singleton, lowBits_accShl1 _ _ _ (by omega), ih (by omega)]

theorem streamBits_append (out out' : List Byte) : streamBits (out ++ out') = streamBits out ++ streamBits out' := by
  simp [streamBits]

theorem streamBits_take (out : List Byte) (k : Nat) : streamBits (out.take k) = (streamBits out).take (8 * k) := by
  rcases le_total k out.length with hk | hk
  · conv_rhs => rw [← List.take_append_drop k out, streamBits_append]
    rw [List.take_left' (by simp [hk])]
  · rw [List.take_of_length_le hk, List.take_of_length_le (by simp; omega)]

/-- Bytes are determined by their bits (R53, R54). -/
theorem streamBits_injective : Function.Injective streamBits := by
  intro out out' h
  have hlen : 8 * out.length = 8 * out'.length := by simpa using congrArg List.length h
  induction out generalizing out' with
  | nil => exact (List.length_eq_zero_iff.1 (by simpa using hlen.symm)).symm
  | cons v out ih =>
    rcases out' with - | ⟨v', out'⟩
    · simp at hlen
    · rw [streamBits_cons, streamBits_cons] at h
      obtain ⟨hv, hout⟩ := List.append_inj h (by simp)
      rw [ih hout (by simpa using hlen), ← byteOf_lowBits v, hv, byteOf_lowBits]

section Streams
variable {out out' : List Byte}

/-- Bytes whose bits begin the bits of others begin those bytes. -/
theorem prefix_of_streamBits_prefix (h : streamBits out <+: streamBits out') : out <+: out' := by
  have hbits : streamBits out = streamBits (out'.take out.length) := by
    rw [streamBits_take, ← length_streamBits]
    exact List.prefix_iff_eq_take.1 h
  exact List.prefix_iff_eq_take.2 (streamBits_injective hbits)

/-- The bytes of groups of eight have the bits of the groups. -/
theorem streamBits_map_byteOf {gs : List (List Bool)} (h : ∀ g ∈ gs, g.length = 8) :
    streamBits (gs.map byteOf) = gs.flatten := by
  induction gs with
  | nil => rfl
  | cons g gs ih =>
    obtain ⟨hg, hgs⟩ := List.forall_mem_cons.1 h
    have hbits : lowBits (byteOf g) 8 = g := hg ▸ lowBits_byteOf hg.le
    rw [List.map_cons, streamBits_cons, hbits, ih hgs, List.flatten_cons]

end Streams

/-- Groups of eight, put together again. -/
theorem flatten_groups (m : List Bool) (n : Nat) :
    ((List.range n).map fun k => (m.drop (8 * k)).take 8).flatten = m.take (8 * n) := by
  induction n with
  | zero => rfl
  | succ n ih =>
    rw [List.range_succ, List.map_append, List.flatten_append, ih, Nat.mul_succ, List.take_add]
    simp

theorem length_of_mem_fullGroups {m g : List Bool} (hg : g ∈ fullGroups m) : g.length = 8 := by
  obtain ⟨k, hk, rfl⟩ := List.mem_map.1 hg
  have hk : k < m.length / 8 := List.mem_range.1 hk
  rw [List.length_take, List.length_drop]
  omega

/-- The full groups are the bits before the short group. -/
theorem streamBits_fullGroups (m : List Bool) :
    streamBits ((fullGroups m).map byteOf) = m.take (8 * (m.length / 8)) :=
  (streamBits_map_byteOf fun _ => length_of_mem_fullGroups).trans (flatten_groups m _)

/-- The short group and the zeros that fill it up. -/
theorem lowBits_lastByte {g : List Bool} (hg : g.length ≤ 8) :
    lowBits (lastByte g) 8 = g ++ List.replicate (8 - g.length) false := by
  have hlen : (g ++ List.replicate (8 - g.length) false).length = 8 := by
    rw [List.length_append, List.length_replicate, Nat.add_sub_cancel' hg]
  have hbits := lowBits_byteOf hlen.le
  rwa [hlen] at hbits

section Pack
variable (s : List Byte)

@[simp] theorem pack_nbits : (pack s).nbits = (bitsOf s).length := rfl

theorem pack_padded : (pack s).padded = true ↔ (bitsOf s).length % 8 ≠ 0 := by
  simp [pack]

theorem pack_padn : (pack s).padn = (8 - (bitsOf s).length % 8) % 8 := by
  by_cases hr : (bitsOf s).length % 8 = 0
  · simp [pack, hr]
  · simp only [pack, if_neg hr]
    omega

/-- The bits of the bytes of `pack` are the meaningful bits and then the padding (R144). -/
theorem streamBits_pack : streamBits (pack s).bytes = bitsOf s ++ List.replicate (pack s).padn false := by
  rw [pack_padn]
  by_cases hr : (bitsOf s).length % 8 = 0
  · have hwhole : 8 * ((bitsOf s).length / 8) = (bitsOf s).length := by omega
    simp [pack, hr, streamBits_fullGroups, hwhole]
  · have hshort : (shortGroup (bitsOf s)).length = (bitsOf s).length % 8 := by
      rw [shortGroup, List.length_drop]
      omega
    have hpad : (8 - (bitsOf s).length % 8) % 8 = 8 - (bitsOf s).length % 8 := by omega
    simp only [pack, if_neg hr, streamBits_append_singleton, streamBits_fullGroups]
    rw [lowBits_lastByte (by omega), hshort, hpad, shortGroup, ← List.append_assoc, List.take_append_drop]

/-- The bytes of `pack` are the only bytes with these bits. -/
theorem eq_pack_bytes {out : List Byte}
    (h : streamBits out = bitsOf s ++ List.replicate ((8 - (bitsOf s).length % 8) % 8) false) :
    out = (pack s).bytes :=
  streamBits_injective (by rw [h, streamBits_pack, pack_padn])

theorem eight_mul_length_pack_bytes : 8 * (pack s).bytes.length = (bitsOf s).length + (pack s).padn := by
  simpa using congrArg List.length (streamBits_pack s)

theorem length_pack_bytes : (pack s).bytes.length = ((bitsOf s).length + 7) / 8 := by
  have h := eight_mul_length_pack_bytes s
  rw [pack_padn] at h
  omega

end Pack

theorem pack_eq_of_bitsOf_eq {s s' : List Byte} (h : bitsOf s = bitsOf s') : pack s = pack s' := by
  simp only [pack, h]

/-- The bits of the bit characters of a stream are the bits of the stream. -/
theorem bitsOf_filter_isBit (s : List Byte) : bitsOf (s.filter isBit) = bitsOf s := by
  simp [bitsOf]

/-- Settles O43: `pack` reads nothing of a stream but its meaningful bits. -/
theorem skippingLaw : Obligations.SkippingLaw := by
  unfold Obligations.SkippingLaw
  exact ⟨fun _ _ => pack_eq_of_bitsOf_eq, fun s => pack_eq_of_bitsOf_eq (bitsOf_filter_isBit s)⟩

/-- Settles O44: the lengths of the two sides of R144. -/
theorem countLaws : Obligations.CountLaws := by
  unfold Obligations.CountLaws
  intro s
  have hpadn := pack_padn s
  refine ⟨length_pack_bytes s, (eight_mul_length_pack_bytes s).symm, (pack_padded s).trans ?_, pack_padded s, by omega,
    fun hs => ?_⟩
  · omega
  · rw [length_pack_bytes, bitsOf, List.filter_eq_self.2 hs, List.length_map]

/-- Settles O45: the padding is shorter than a byte, so it lies in the last one. -/
theorem paddingLaw : Obligations.PaddingLaw := by
  unfold Obligations.PaddingLaw
  refine fun s => ⟨streamBits_pack s, fun hp => ?_⟩
  have hr := (pack_padded s).1 hp
  have hpadn := pack_padn s
  have hlen := eight_mul_length_pack_bytes s
  obtain ⟨v, hv, -, hzero⟩ := lastByte_value (streamBits_pack s) (by omega) hr
  have hlast : (pack s).bytes.length - 1 = (bitsOf s).length / 8 := by omega
  refine ⟨(pack s).bytes.dropLast, v, ?_, hzero, ?_⟩
  · rw [← hlast, ← List.getLast?_eq_getElem?] at hv
    exact (List.dropLast_append_getLast? v hv).symm
  · rw [List.dropLast_eq_take, streamBits_take, streamBits_pack, List.take_append_of_le_length (by omega),
      List.length_take_of_le (Nat.sub_le _ _)]

/-- Settles O46: without padding in between the bits of the parts are the bits of the whole. A single bit in front moves a second one
into the padding of the first byte. -/
theorem concatenationLaw : Obligations.ConcatenationLaw := by
  unfold Obligations.ConcatenationLaw
  refine ⟨fun s1 s2 h => ?_, [0x31], [0x31], by decide⟩
  rw [pack_nbits] at h
  have hpadn : (pack s1).padn = 0 := by rw [pack_padn, h]
  refine (eq_pack_bytes _ ?_).symm
  rw [streamBits_append, streamBits_pack, streamBits_pack, hpadn, pack_padn, bitsOf_append, List.length_append,
    Nat.add_mod, h, Nat.zero_add, Nat.mod_mod, List.replicate_zero, List.append_nil, List.append_assoc]

/-- Settles O47: a bit before the padding is a bit of the bytes. -/
theorem recoveryLaw : Obligations.RecoveryLaw := by
  unfold Obligations.RecoveryLaw
  refine ⟨fun s i hi => ?_, by decide, by decide, by decide⟩
  rw [← streamBits_getElem?, streamBits_pack, List.getElem?_append_left hi]

end Sys2Proof.Machine
end

section
/-! SUPPORT. A conversion compared with `pack`: its end, any of its beginnings, and a sink that refuses a byte
(42_whole_conversion.md R141, R145, R148, R149). -/

namespace Sys2Proof.Machine

section Steps
variable {s t : State}

/-- The registers after a step, as the block's own step gives them (R37). -/
theorem step_block_eq (h : step s = .next t) :
    t.block = (blockStep (hostResets s) s.input.head? (s.answers.head?.map SinkAnswer.verdict) s.block).block := by
  obtain ⟨_, t', rfl, e, hblock, -⟩ := stepIsTheBlocksOwnStep s
  rw [h] at e
  cases e
  exact hblock

theorem step_rst_nil (hr : s.rst = []) : ∃ t, step s = .next t ∧ t.rst = [] := by
  obtain ⟨_, t, -, e, -, -, -, -, -, hrst⟩ := stepIsTheBlocksOwnStep s
  exact ⟨t, e, by rw [hrst, hr, List.tail_nil]⟩

/-- A host with no reset left to apply applies none in a whole run. -/
theorem run_rst_nil {k : Nat} (h : Sys2Proof.core.run k s = .next t) (hr : s.rst = []) : t.rst = [] := by
  obtain ⟨t', e, ht⟩ := run_keeps (fun _ => step_rst_nil) k s hr
  rw [h] at e
  cases e
  exact ht

/-- Outside RUN and without a reset a step changes nothing (R164, R176, R196). -/
theorem step_stuck (hr : s.rst = []) (hp : s.block.phase ≠ .run) : step s = .next s := by
  rcases hi : s.input with - | ⟨w, ws⟩
  · rw [step_quiet s (by simp [hostResets, hr]) hi, hostTurn, hr, List.tail_nil, ← hr]
  · rw [step_presented hr hi, exec_held s _ hp]

theorem run_stuck (j : Nat) (hr : s.rst = []) (hp : s.block.phase ≠ .run) : Sys2Proof.core.run j s = .next s := by
  induction j with
  | zero => rfl
  | succ j ih => rw [run_succ _ _ _ (step_stuck hr hp), ih]

/-- A run that has left RUN has come to its end. -/
theorem run_past_end {n k : Nat} (hnk : n ≤ k) (h : Sys2Proof.core.run n s = .next t) (hr : s.rst = [])
    (hp : t.block.phase ≠ .run) : Sys2Proof.core.run k s = .next t := by
  obtain ⟨j, rfl⟩ := Nat.exists_eq_add_of_le hnk
  rw [run_add j h, run_stuck j (run_rst_nil h hr) hp]

end Steps

/-- Settles O34: the block's own step has no parameter but the four named. -/
theorem stepLooksNoFurtherAhead : Obligations.StepLooksNoFurtherAhead := by
  unfold Obligations.StepLooksNoFurtherAhead
  intro s s' t t' hblock hinput hanswers hreset h h'
  rw [step_block_eq h, step_block_eq h', hblock, hinput, hanswers, hreset]

/-- ACC is the number of the held bits (R20, I-d). -/
theorem acc_eq_of_heldInv {b : Block} (h : HeldInv b) : b.acc.toNat = bitsValue (heldBits b) := by
  obtain ⟨-, -, hacc⟩ := h
  have hflush := (toNat_flushedByte b).symm.trans (toNat_flushedByte_of_lt b hacc)
  exact (Nat.eq_of_mul_eq_mul_right (Nat.two_pow_pos _) hflush).symm

/-- The bit that completes a byte stands after the seven held bits (R113). -/
theorem lowBits_completedByte (x : Bool) {b : Block} (h7 : b.cnt = 7) :
    lowBits (accShl1 b.acc x) 8 = heldBits b ++ [x] := by
  rw [lowBits_accShl1 _ _ 7 (by decide), heldBits, h7]
  rfl

theorem bitsOf_prefix {s s' : List Byte} (h : s <+: s') : bitsOf s <+: bitsOf s' :=
  (h.filter isBit).map bitVal

/-- The meaningful bits begin the bits of the bytes (R144). -/
theorem bitsOf_prefix_streamBits_pack (s : List Byte) : bitsOf s <+: streamBits (pack s).bytes := by
  rw [streamBits_pack]
  exact List.prefix_append _ _

theorem streamWords_append (s s' : List Byte) : streamWords (s ++ s') = charWords s ++ streamWords s' := by
  simp [streamWords, charWords]

@[simp] theorem length_charWords (s : List Byte) : (charWords s).length = s.length :=
  List.length_map _

/-- The characters before a given meaningful bit, and its character. -/
theorem exists_bit_split {s : List Byte} {n : Nat} (hn : n < (bitsOf s).length) :
    ∃ before c after, s = before ++ c :: after ∧ isBit c = true ∧ (bitsOf before).length = n := by
  induction s using List.reverseRecOn with
  | nil => exact absurd hn (Nat.not_lt_zero n)
  | append_singleton s c ih =>
    by_cases hs : n < (bitsOf s).length
    · obtain ⟨before, d, after, rfl, hd, hbefore⟩ := ih hs
      exact ⟨before, d, after ++ [c], by simp, hd, hbefore⟩
    · rw [bitsOf_append, bitsOf_singleton] at hn
      by_cases hc : isBit c = true
      · simp only [hc, if_true, List.length_append, List.length_singleton] at hn
        exact ⟨s, c, [], rfl, hc, by omega⟩
      · simp only [hc, List.length_append] at hn
        exact absurd hn (by simpa using hs)

/-- A conversion up to any point between two characters. -/
theorem run_to_afterChars (cs cs' : List Byte) (f : Nat) (rest : List SinkAnswer) (s0 : State)
    (hf : (bitsOf cs).length / 8 ≤ f) :
    ∃ t, Sys2Proof.core.run cs.length
        (beginConversion (streamWords (cs ++ cs')) (List.replicate f .ok ++ rest) s0) = .next t ∧
      AfterChars cs (streamWords cs') f rest t := by
  have hbegin := afterChars_beginConversion (streamWords (cs ++ cs')) f rest s0
  rw [streamWords_append] at hbegin ⊢
  exact hbegin.run_chars cs hf

section AfterChars
variable {cs : List Byte} {ws : List CommandWord} {f : Nat} {rest : List SinkAnswer} {t : State}

theorem AfterChars.length_out (h : AfterChars cs ws f rest t) : t.out.length = (bitsOf cs).length / 8 := by
  have hlen : 8 * t.out.length + t.block.cnt.toNat = (bitsOf cs).length := by
    simpa [bitsInside, heldBits] using congrArg List.length h.inside
  have hcnt := h.cnt_eq
  omega

theorem AfterChars.heldBits_eq (h : AfterChars cs ws f rest t) :
    heldBits t.block = (bitsOf cs).drop (8 * ((bitsOf cs).length / 8)) := by
  rw [← h.length_out, ← length_streamBits, ← h.inside, bitsInside, List.drop_left]

theorem AfterChars.nbytes_eq (h : AfterChars cs ws f rest t) : t.block.nbytes = (bitsOf cs).length / 8 := by
  obtain ⟨⟨-, hnbytes, -⟩, -⟩ := h.inv.1 h.phase
  rw [hnbytes, h.bits]

theorem AfterChars.acc_eq (h : AfterChars cs ws f rest t) : t.block.acc.toNat = bitsValue (heldBits t.block) := by
  obtain ⟨hinv, -⟩ := h.inv.1 h.phase
  exact acc_eq_of_heldInv hinv

/-- OUT begins the bytes of every stream whose bits begin with those taken (R145). -/
theorem AfterChars.out_prefix (h : AfterChars cs ws f rest t) {s : List Byte} (hs : bitsOf cs <+: bitsOf s) :
    t.out <+: (pack s).bytes := by
  refine prefix_of_streamBits_prefix ?_
  calc streamBits t.out
    _ <+: bitsInside t := List.prefix_append _ _
    _ = bitsOf cs := h.inside
    _ <+: bitsOf s := hs
    _ <+: streamBits (pack s).bytes := bitsOf_prefix_streamBits_pack s

end AfterChars

/-- Settles O39: after the characters OUT begins the result, and what it does not hold yet is held. -/
theorem prefixOfConversion : Obligations.PrefixOfConversion := by
  unfold Obligations.PrefixOfConversion
  intro s0 s f rest i hi hf
  obtain ⟨t, e, h⟩ := run_to_afterChars (s.take i) (s.drop i) f rest s0 hf
  rw [List.take_append_drop, List.length_take_of_le hi] at e
  refine ⟨t, e, h.phase, ?_, h.heldBits_eq, h.acc_eq, h.bits, h.cnt_eq, h.nbytes_eq, ?_⟩
  · rw [← h.length_out]
    exact List.prefix_iff_eq_take.1 (h.out_prefix (bitsOf_prefix (List.take_prefix i s)))
  · rw [h.pos, List.length_take_of_le hi]

/-- The results of a conversion that reached DONE are those of `pack` (R141). -/
theorem AfterEnd.results {s : List Byte} {ws : List CommandWord} {t : State} (ht : AfterEnd s ws t) :
    t.out = (pack s).bytes ∧ t.block.bits = (pack s).nbits ∧ t.block.nbytes = (pack s).bytes.length ∧
      t.block.padded = (pack s).padded ∧ t.block.padn.toNat = (pack s).padn ∧ t.block.acc = 0 ∧ t.block.cnt = 0 ∧
      t.block.errcode = .none := by
  obtain ⟨hacc, hcnt, hnbytes, hpadded, hpadn, herr, -⟩ := ht.inv.2.1 ht.phase
  rw [ht.bits] at hnbytes hpadded hpadn
  refine ⟨eq_pack_bytes s ht.out, ht.bits, hnbytes.trans (length_pack_bytes s).symm, ?_,
    hpadn.trans (pack_padn s).symm, hacc, hcnt, herr⟩
  exact Bool.eq_iff_iff.2 (hpadded.trans (pack_padded s).symm)

/-- Settles O38: the state that END leaves, in the terms of `pack`. -/
theorem conversionAgreesWithPack : Obligations.ConversionAgreesWithPack := by
  unfold Obligations.ConversionAgreesWithPack
  intro s0 s as hok hlen
  obtain ⟨t, e, ht⟩ := run_conversion s as.length [] s0 (length_pack_bytes s ▸ hlen)
  rw [List.append_nil, ← List.eq_replicate_of_mem hok] at e
  obtain ⟨hout, hbits, hnbytes, hpadded, hpadn, hacc, hcnt, herr⟩ := ht.results
  exact ⟨t, e, ht.phase, hout, hbits, hnbytes, hpadded, hpadn, hacc, hcnt, herr, ht.pos, ht.input⟩

/-- A conversion of `s` that stopped because byte `f` was refused, with `n` bits taken and `p` commands consumed (R148, R162). -/
structure StoppedAt (s : List Byte) (f : Nat) (c : Cause) (landed : Bool) (as : List SinkAnswer) (n p : Nat)
    (t : State) : Prop where
  phase : t.block.phase = .error
  errcode : t.block.errcode = .ioerr
  cause : t.block.cause = c
  nbytes : t.block.nbytes = f
  out (h : f < (pack s).bytes.length) :
    t.out = (pack s).bytes.take f ++ (if landed then [(pack s).bytes[f]] else [])
  bits : t.block.bits = n
  cnt : t.block.cnt.toNat = n % 8
  held : heldBits t.block = ((bitsOf s).take n).drop (8 * f)
  acc : t.block.acc.toNat = bitsValue (heldBits t.block)
  padded : t.block.padded = false
  padn : t.block.padn = 0
  answers : t.answers = as
  input : t.input = (streamWords s).drop p
  pos : t.pos = p

section Refusal
variable {s cs : List Byte} {w : CommandWord} {ws : List CommandWord} {f : Nat} {c : Cause} {landed : Bool}
  {as : List SinkAnswer} {t : State}

/-- The sink that has accepted its `f` bytes refuses the next. -/
theorem AfterChars.answers_fail (h : AfterChars cs ws f (.fail c landed :: as) t) (hf : (bitsOf cs).length / 8 = f) :
    t.answers = .fail c landed :: as := by
  rw [h.answers, hf, Nat.sub_self]
  rfl

/-- The exception taken with the byte `v` on offer. -/
theorem AfterChars.stoppedAt {v : Byte} (h : AfterChars cs (w :: ws) f (.fail c landed :: as) t)
    (hf : (bitsOf cs).length / 8 = f) (hs : bitsOf cs <+: bitsOf s) (hv : t.out ++ [v] <+: (pack s).bytes)
    (hws : ws = (streamWords s).drop (cs.length + 1)) :
    StoppedAt s f c landed as (bitsOf cs).length (cs.length + 1) (takeCommand { t with
      out := t.out ++ (if landed then [v] else []), answers := as, block := raiseIOError c t.block }) := by
  obtain ⟨-, hpadded, hpadn, -⟩ := h.inv.1 h.phase
  have hlen : t.out.length = f := h.length_out.trans hf
  obtain ⟨later, hbytes⟩ := hv
  exact {
    phase := rfl
    errcode := rfl
    cause := rfl
    nbytes := h.nbytes_eq.trans hf
    out := fun _ => by simp [← hbytes, ← hlen]
    bits := h.bits
    cnt := h.cnt_eq
    held := by
      rw [← List.prefix_iff_eq_take.1 hs, ← hf]
      exact h.heldBits_eq
    acc := h.acc_eq
    padded := hpadded
    padn := hpadn
    answers := rfl
    input := by simp [h.input, hws]
    pos := by simp [h.pos] }

/-- A BIT command completes byte `f`. -/
theorem AfterChars.stop_at_bit {d : Byte} {cs' : List Byte}
    (h : AfterChars cs (streamWords (d :: cs')) f (.fail c landed :: as) t) (hd : isBit d = true)
    (hbits : (bitsOf cs).length = 8 * f + 7) :
    ∃ u, step t = .next u ∧ StoppedAt (cs ++ d :: cs') f c landed as (8 * f + 7) (cs.length + 1) u := by
  rw [streamWords_cons] at h
  have hf : (bitsOf cs).length / 8 = f := by omega
  have h7 : t.block.cnt = 7 := BitVec.eq_of_toNat_eq (by rw [h.cnt_eq, hbits, Nat.mul_add_mod]; rfl)
  have hbyte : streamBits (t.out ++ [accShl1 t.block.acc (bitVal d)]) = bitsOf (cs ++ [d]) := by
    rw [streamBits_append_singleton, lowBits_completedByte _ h7, ← List.append_assoc, ← bitsInside, h.inside]
    simp [hd]
  refine ⟨_, ?_, hbits ▸ h.stoppedAt (v := accShl1 t.block.acc (bitVal d)) hf
    (bitsOf_prefix (List.prefix_append _ _)) ?_ ?_⟩
  · rw [step_presented h.rst h.input, decode_formatC_false, if_pos hd]
    exact exec_bitCommand_refused t _ c landed as h.phase h7 (h.answers_fail hf)
  · refine prefix_of_streamBits_prefix (hbyte ▸ ?_)
    have hcs : cs ++ [d] <+: cs ++ d :: cs' := by simp
    exact (bitsOf_prefix hcs).trans (bitsOf_prefix_streamBits_pack _)
  · rw [List.append_cons, streamWords_append, List.drop_left' (by simp)]

/-- END flushes byte `f`. -/
theorem AfterChars.stop_at_end (h : AfterChars s (streamWords []) f (.fail c landed :: as) t)
    (hf : (bitsOf s).length / 8 = f) (hr : (bitsOf s).length % 8 ≠ 0) :
    ∃ u, step t = .next u ∧ StoppedAt s f c landed as (bitsOf s).length (s.length + 1) u := by
  have h0 : t.block.cnt ≠ 0 := fun e => hr (by rw [← h.cnt_eq, e]; rfl)
  have hpad : 8 - t.block.cnt.toNat = (pack s).padn := by
    rw [pack_padn, h.cnt_eq]
    omega
  have hbyte : streamBits (t.out ++ [t.block.acc <<< (8 - t.block.cnt.toNat)]) = streamBits (pack s).bytes := by
    rw [streamBits_append_singleton, lowBits_flushedByte, ← List.append_assoc, ← bitsInside, h.inside, hpad,
      streamBits_pack]
  refine ⟨_, ?_, h.stoppedAt (v := t.block.acc <<< (8 - t.block.cnt.toNat)) hf (List.prefix_refl _) ?_ ?_⟩
  · rw [step_presented h.rst h.input]
    exact exec_endStream_refused t 0 c landed as h.phase h0 (h.answers_fail hf)
  · rw [streamBits_injective hbyte]
  · simp [streamWords]

end Refusal

/-- A conversion whose sink refuses byte `f` when a BIT command completes it. -/
theorem run_stops_at_bit (s0 : State) {s : List Byte} {f : Nat} (c : Cause) (landed : Bool) (as : List SinkAnswer)
    (hfull : 8 * f + 8 ≤ (bitsOf s).length) :
    ∃ p t, Sys2Proof.core.run p
        (beginConversion (streamWords s) (List.replicate f .ok ++ .fail c landed :: as) s0) = .next t ∧
      StoppedAt s f c landed as (8 * f + 7) p t ∧ p ≤ s.length ∧
      (bitsOf (s.take p)).length = 8 * f + 8 ∧ (bitsOf (s.take (p - 1))).length = 8 * f + 7 := by
  obtain ⟨cs, d, cs', rfl, hd, hbits⟩ := exists_bit_split (show 8 * f + 7 < (bitsOf s).length by omega)
  obtain ⟨t, e, h⟩ := run_to_afterChars cs (d :: cs') f (.fail c landed :: as) s0 (by omega)
  obtain ⟨u, e', hu⟩ := h.stop_at_bit hd hbits
  refine ⟨cs.length + 1, u, (run_add 1 e).trans (run_succ 0 _ _ e'), hu, by simp, ?_, ?_⟩
  · rw [List.append_cons, List.take_left' (by simp)]
    simp [hd, hbits]
  · rw [Nat.add_sub_cancel, List.take_left, hbits]

/-- A conversion whose sink refuses byte `f` when END flushes it. -/
theorem run_stops_at_end (s0 : State) {s : List Byte} {f : Nat} (c : Cause) (landed : Bool) (as : List SinkAnswer)
    (hf : (bitsOf s).length / 8 = f) (hr : (bitsOf s).length % 8 ≠ 0) :
    ∃ t, Sys2Proof.core.run (s.length + 1)
        (beginConversion (streamWords s) (List.replicate f .ok ++ .fail c landed :: as) s0) = .next t ∧
      StoppedAt s f c landed as (bitsOf s).length (s.length + 1) t := by
  obtain ⟨t, e, h⟩ := run_to_afterChars s [] f (.fail c landed :: as) s0 hf.le
  obtain ⟨u, e', hu⟩ := h.stop_at_end hf hr
  rw [List.append_nil] at e
  exact ⟨u, (run_add 1 e).trans (run_succ 0 _ _ e'), hu⟩

/-- Where a conversion stops whose sink refuses byte `f`: at the bit that completes it, or at END. -/
theorem run_stops (s0 : State) {s : List Byte} {f : Nat} (c : Cause) (landed : Bool) (as : List SinkAnswer) {k : Nat}
    (hk : s.length + 1 ≤ k) (hf : f < (pack s).bytes.length) :
    ∃ n p t, Sys2Proof.core.run k
        (beginConversion (streamWords s) (List.replicate f .ok ++ .fail c landed :: as) s0) = .next t ∧
      StoppedAt s f c landed as n p t ∧
      n = (if 8 * f + 8 ≤ (bitsOf s).length then 8 * f + 7 else (bitsOf s).length) ∧
      (if 8 * f + 8 ≤ (bitsOf s).length then
        (bitsOf (s.take p)).length = 8 * f + 8 ∧ (bitsOf (s.take (p - 1))).length = 8 * f + 7
      else p = s.length + 1) := by
  by_cases hfull : 8 * f + 8 ≤ (bitsOf s).length
  · obtain ⟨p, t, e, ht, hp, hat⟩ := run_stops_at_bit s0 c landed as hfull
    have e' := run_past_end (show p ≤ k by omega) e rfl (by simp [ht.phase])
    exact ⟨_, p, t, e', ht, (if_pos hfull).symm, (if_pos hfull).mpr hat⟩
  · rw [length_pack_bytes] at hf
    obtain ⟨t, e, ht⟩ := run_stops_at_end s0 c landed as (show (bitsOf s).length / 8 = f by omega) (by omega)
    exact ⟨_, _, t, run_past_end hk e rfl (by simp [ht.phase]), ht, (if_neg hfull).symm, (if_neg hfull).mpr rfl⟩

/-- Settles O40: the sink accepts every byte and the conversion ends in DONE, or it refuses byte `f` and the conversion stops there;
either way what is left of the run changes nothing. -/
theorem failingSinkStopsTheConversion : Obligations.FailingSinkStopsTheConversion := by
  unfold Obligations.FailingSinkStopsTheConversion
  refine fun s0 s f c landed as k hk => ⟨fun hf => ?_, fun hf => ?_⟩
  · obtain ⟨t, e, ht⟩ := run_conversion s f (.fail c landed :: as) s0 (length_pack_bytes s ▸ hf)
    obtain ⟨hout, hbits, hnbytes, hpadded, hpadn, hacc, hcnt, herr⟩ := ht.results
    exact ⟨t, run_past_end hk e rfl (by simp [ht.phase]), ht.phase, hout, hbits, hnbytes, hpadded, hpadn, hacc, hcnt,
      herr, ht.pos⟩
  · obtain ⟨n, p, t, e, ht, hn, hp⟩ := run_stops s0 c landed as hk hf
    obtain rfl := ht.bits
    obtain rfl := ht.pos
    exact ⟨t, e, ht.phase, ht.errcode, ht.cause, ht.nbytes, ht.out hf, hn, ht.cnt, ht.held, ht.acc, ht.padded, ht.padn,
      ht.answers, ht.input, hp⟩

end Sys2Proof.Machine
end

section
/-! SUPPORT. The exception IOError: which commands raise it, all it writes, and how it shows on the status ports
(60_exceptions.md R161 to R164, R176). -/

namespace Sys2Proof.Machine

section CommandResult
variable {s t : State} {i : Instr}

/-- A command that takes RUN to ERROR has used a refusal, and its next state is the one of `raise IOError(c)` (R162). -/
theorem CommandResult.eq_raise (r : CommandResult s i t) (hp : s.block.phase = .run) (ht : t.block.phase = .error) :
    ∃ c landed v, s.answers = .fail c landed :: t.answers ∧
      t = takeCommand { s with out := s.out ++ (if landed then [v] else []), answers := t.answers
                               block := raiseIOError c s.block } := by
  cases r with
  | byteRefused _ c landed _ _ _ ha | flushRefused _ c landed _ _ _ ha => exact ⟨c, landed, _, ha, rfl⟩
  | held | waiting | skipped | bitHeld | byteAccepted => cases hp.symm.trans ht
  | ended | flushAccepted => cases ht

/-- A command that uses an answer of the sink is a BIT command completing a byte or an END with bits held (R161). -/
theorem CommandResult.offers_of_answers_ne (r : CommandResult s i t) (ha : t.answers ≠ s.answers) :
    ((i = .bit0 ∨ i = .bit1) ∧ s.block.cnt = 7) ∨ (mnemonic i = .END ∧ s.block.cnt ≠ 0) := by
  rcases r.answers_eq_or with h | ⟨hend, h7⟩ | hend
  · exact absurd h ha
  · cases i with
    | bit0 => exact .inl ⟨.inl rfl, h7⟩
    | bit1 => exact .inl ⟨.inr rfl, h7⟩
    | skip =>
      obtain ⟨-, -, h⟩ := r.skip_frame rfl
      exact absurd h ha
    | endStream => exact absurd rfl hend
  · exact .inr hend

end CommandResult

/-- Settles O24: a command that raises has used a refusal, and only an offer uses an answer. -/
theorem onlyARefusedByteRaises : Obligations.OnlyARefusedByteRaises := by
  unfold Obligations.OnlyARefusedByteRaises
  intro i s t hp h ht
  have r := exec_result i s t h
  obtain ⟨c, landed, -, ha, -⟩ := r.eq_raise hp ht
  exact ⟨r.offers_of_answers_ne (by simp [ha]), c, landed, _, ha⟩

/-- Settles O25: the next state of a command that raises, field by field; in ERROR every command is held. -/
theorem exceptionIsPrecise : Obligations.ExceptionIsPrecise := by
  unfold Obligations.ExceptionIsPrecise
  intro i s t hp h ht
  obtain ⟨c, landed, v, ha, e⟩ := (exec_result i s t h).eq_raise hp ht
  exact ⟨c, landed, v, ha, congrArg State.block e, congrArg State.pos e, congrArg State.input e, congrArg State.out e,
    fun j => exec_held t j (by simp [ht])⟩

section Ports
variable {b : Block} {x : Inputs}

/-- The command the ports carry offers a byte where `need_emit` says so (R204). -/
theorem commandPlan_of_needEmit (h : needEmit b x = true) : ∃ v b', commandPlan (portCommand x) b = .offer v b' := by
  simp only [needEmit, completes, flushes, Bool.and_eq_true, Bool.or_eq_true, beq_iff_eq, bne_iff_ne] at h
  obtain ⟨-, hoffers⟩ := h
  cases hi : portCommand x with
  | bit0 => exact ⟨_, _, bitPlan_full false b (by simpa [hi, mnemonic] using hoffers)⟩
  | bit1 => exact ⟨_, _, bitPlan_full true b (by simpa [hi, mnemonic] using hoffers)⟩
  | skip => simp [hi, mnemonic] at hoffers
  | endStream => exact ⟨_, _, endPlan_held b (by simpa [hi, mnemonic] using hoffers)⟩

/-- An offer that the sink answers fires (R204). -/
theorem fire_of_outValid (hv : outValid b x = true) (hready : x.outReady = true) : fire b x = true := by
  have ⟨hr, ⟨hp, hcmd⟩, _⟩ : x.rst = false ∧ (b.phase = .run ∧ x.cmdValid = true) ∧
      (completes b x = true ∨ flushes b x = true) := by
    simpa [outValid, needEmit] using hv
  simp [fire, cmdReady, hr, hp, hcmd, hready]

/-- Outside RUN no command fires (R196). -/
theorem fire_outside_run (hp : b.phase ≠ .run) : fire b x = false := by
  simp [fire, cmdReady, hp]

/-- At the edge of a cycle that fires, the plan of the command is carried out (R204). -/
theorem clockEdge_fire (hr : x.rst = false) (hf : fire b x = true) :
    clockEdge b x = settlePlan (commandPlan (portCommand x) b) x b := by
  cases hi : portCommand x <;> simp [clockEdge, hr, hf, hi, commandPlan]

/-- In a cycle without reset that does not fire, every register holds (R204). -/
theorem clockEdge_idle (hr : x.rst = false) (hf : fire b x = false) : clockEdge b x = b := by
  simp [clockEdge, hr, hf]

/-- A byte offered and refused raises IOError with the cause on the port (R162, R204). -/
theorem clockEdge_refused (hv : outValid b x = true) (hready : x.outReady = true) (herr : x.outErr = true) :
    clockEdge b x = raiseIOError (portCause x) b := by
  have ⟨hr, hneed⟩ : x.rst = false ∧ needEmit b x = true := by simpa [outValid] using hv
  obtain ⟨v, b', hplan⟩ := commandPlan_of_needEmit hneed
  rw [clockEdge_fire hr (fire_of_outValid hv hready), hplan, settlePlan, if_pos herr]

end Ports

/-- Settles O55: the registers after the edge are those of the exception; the ports show them, and in ERROR no cycle fires. -/
theorem errorReachesTheStatusPorts : Obligations.ErrorReachesTheStatusPorts := by
  unfold Obligations.ErrorReachesTheStatusPorts
  intro noise b x y z hv hready herr hy
  have hcause : BitVec.ofNat Config.causeW (portCause x).token = x.outCause :=
    (BitVec.ofNat_toNat _ _).trans (BitVec.setWidth_eq _)
  rw [clockEdge_refused hv hready herr]
  exact ⟨rfl, rfl, hcause, clockEdge_idle hy (fire_outside_run (by simp))⟩

/-- Settles O31: with nothing presented and no reset left, the step gives the same state, so a run never leaves it. -/
theorem quietMachineHoldsItsState : Obligations.QuietMachineHoldsItsState := by
  unfold Obligations.QuietMachineHoldsItsState
  intro s hi hr k
  have hquiet : step s = .next s := by
    rw [step_quiet s (by simp [hostResets, hr]) hi, hostTurn, hr, List.tail_nil, ← hr]
  obtain ⟨_, e, rfl⟩ := run_keeps (P := (· = s)) (fun _ h => ⟨s, h ▸ hquiet, rfl⟩) k s rfl
  exact e

end Sys2Proof.Machine
end

section
/-! SUPPORT. Reset against a command, the hold outside RUN, and the offer that waits (70_reset_and_hazards.md R190 to R192, R196, R200
K-e, R205). -/

namespace Sys2Proof.Machine

section Held
variable {s : State}

theorem hostResets_cons {a : Bool} {r : List Bool} (hr : s.rst = a :: r) : hostResets s = a := by
  rw [hostResets, hr, List.headD_cons]

theorem hostResets_of_all_false (hr : ∀ a ∈ s.rst, a = false) : hostResets s = false := by
  cases hl : s.rst with
  | nil => rw [hostResets, hl, List.headD_nil]
  | cons a r => exact (hostResets_cons hl).trans (hr a (by simp [hl]))

/-- Outside RUN, whatever is presented, a step without a reset only uses up the host's choice (R164, R196). -/
theorem step_held (hr : hostResets s = false) (hp : s.block.phase ≠ .run) : step s = .next (hostTurn s) := by
  rcases hi : s.input with - | ⟨w, ws⟩
  · exact step_quiet s hr hi
  · rw [step_command s w ws hr hi, exec_held (hostTurn s) _ hp]

theorem run_held (k : Nat) (hr : ∀ a ∈ s.rst, a = false) (hp : s.block.phase ≠ .run) :
    Sys2Proof.core.run k s = .next { s with rst := s.rst.drop k } := by
  induction k generalizing s with
  | zero => rfl
  | succ k ih =>
    have hturn : ∀ a ∈ (hostTurn s).rst, a = false := fun a ha => hr a (List.mem_of_mem_tail ha)
    rw [run_succ _ _ _ (step_held (hostResets_of_all_false hr) hp), ih hturn hp, hostTurn_rst, List.drop_tail]
    rfl

end Held

/-- While the sink has not answered, a BIT command that completes a byte waits (R200 K-e). -/
theorem exec_bitCommand_waiting (s : State) (x : Bool) (hp : s.block.phase = .run) (h7 : s.block.cnt = 7)
    (ha : s.answers = []) : exec (bitCommand x) s = .next s := by
  rw [exec_bitCommand, bitPlan_full _ _ h7, perform_offer_waiting _ _ _ hp ha]

/-- While the sink has not answered, an END with bits held waits (R200 K-e). -/
theorem exec_endStream_waiting (s : State) (c : Byte) (hp : s.block.phase = .run) (h0 : s.block.cnt ≠ 0)
    (ha : s.answers = []) : exec (.endStream c) s = .next s := by
  rw [exec_endStream, endPlan_held _ h0, perform_offer_waiting _ _ _ hp ha]

/-- Settles O12: the commands that offer a byte, each with no answer. -/
theorem offerWaitsForTheSink : Obligations.OfferWaitsForTheSink := by
  unfold Obligations.OfferWaitsForTheSink
  intro s hp ha
  exact ⟨fun h7 => ⟨exec_bitCommand_waiting s false hp h7 ha, exec_bitCommand_waiting s true hp h7 ha⟩,
    fun h0 c => exec_endStream_waiting s c hp h0 ha⟩

/-- Settles O29: the reset step writes the registers and POS, and uses up the host's choice. -/
theorem resetStep : Obligations.ResetStep := by
  unfold Obligations.ResetStep
  intro s r hr
  have hturn : (hostTurn s).rst = r := by rw [hostTurn_rst, hr, List.tail_cons]
  rw [step_reset s (hostResets_cons hr), ← hturn]
  rfl

end Sys2Proof.Machine
end

section
/-! SUPPORT. One cycle of the ports as one turn of the block, and so as one step of the machine (70_reset_and_hazards.md R191, R194,
R196, R204 to R206; 10_state.md R37). -/

namespace Sys2Proof.Machine

section Ports
variable {b : Block} {x y : Inputs}

/-- When a byte is on offer (R204). -/
theorem outValid_iff : outValid b x = true ↔
    x.rst = false ∧ b.phase = .run ∧ x.cmdValid = true ∧ (completes b x = true ∨ flushes b x = true) := by
  simp [outValid, needEmit, and_assoc]

section Reset

theorem cmdReady_reset (b : Block) (hr : x.rst = true) : cmdReady b x = false := by
  simp [cmdReady, hr]

theorem fire_reset (b : Block) (hr : x.rst = true) : fire b x = false := by
  simp [fire, cmdReady_reset b hr]

theorem outValid_reset (b : Block) (hr : x.rst = true) : outValid b x = false := by
  simp [outValid, hr]

theorem clockEdge_reset (b : Block) (hr : x.rst = true) : clockEdge b x = blockReset := by
  simp [clockEdge, hr]

end Reset

theorem cmdReady_outside_run (hp : b.phase ≠ .run) : cmdReady b x = false := by
  simp [cmdReady, hp]

theorem outValid_outside_run (hp : b.phase ≠ .run) : outValid b x = false := by
  simp [outValid, needEmit, hp]

theorem outValid_idle (b : Block) (hc : x.cmdValid = false) : outValid b x = false := by
  simp [outValid, needEmit_idle b x hc]

theorem fire_idle (b : Block) (hc : x.cmdValid = false) : fire b x = false := by
  simp [fire, hc]

/-- A command that needs no emission fires at once (R204). -/
theorem fire_of_not_needEmit (hr : x.rst = false) (hp : b.phase = .run) (hc : x.cmdValid = true)
    (hn : needEmit b x = false) : fire b x = true := by
  simp [fire, cmdReady, hr, hp, hc, hn]

/-- A command that needs an emission fires only in a cycle that offers the byte and has the answer (R204). -/
theorem offer_answered_of_fire (hn : needEmit b x = true) (hf : fire b x = true) :
    outValid b x = true ∧ x.outReady = true := by
  have ⟨_, ⟨hr, _⟩, hready⟩ : x.cmdValid = true ∧ (x.rst = false ∧ b.phase = .run) ∧ x.outReady = true := by
    simpa [fire, cmdReady, hn] using hf
  exact ⟨by simp [outValid, hr, hn], hready⟩

/-- An offer that the sink does not answer does not fire (R205). -/
theorem fire_of_unanswered (hv : outValid b x = true) (hready : x.outReady = false) : fire b x = false := by
  have ⟨_, hn⟩ : x.rst = false ∧ needEmit b x = true := by simpa [outValid] using hv
  simp [fire, cmdReady, hn, hready]

section Congruence

theorem portCommand_congr (he : x.cmdEnd = y.cmdEnd) (hch : x.cmdChar = y.cmdChar) : portCommand x = portCommand y := by
  rw [portCommand, portCommand, portWord, portWord, he, hch]

theorem completes_congr (b : Block) (hi : portCommand x = portCommand y) : completes b x = completes b y := by
  rw [completes, completes, hi]

theorem needEmit_congr (b : Block) (hc : x.cmdValid = y.cmdValid) (hi : portCommand x = portCommand y) :
    needEmit b x = needEmit b y := by
  rw [needEmit, needEmit, completes_congr b hi, flushes, flushes, hi, hc]

/-- `out_valid` reads reset and the command, and none of the sink's ports (R206). -/
theorem outValid_congr (b : Block) (hr : x.rst = y.rst) (hc : x.cmdValid = y.cmdValid) (he : x.cmdEnd = y.cmdEnd)
    (hch : x.cmdChar = y.cmdChar) : outValid b x = outValid b y := by
  rw [outValid, outValid, needEmit_congr b hc (portCommand_congr he hch), hr]

/-- `out_byte` reads reset and the command, and none of the sink's ports (R206). -/
theorem outByte_congr (noise : Byte) (b : Block) (hr : x.rst = y.rst) (hc : x.cmdValid = y.cmdValid)
    (he : x.cmdEnd = y.cmdEnd) (hch : x.cmdChar = y.cmdChar) : outByte noise b x = outByte noise b y := by
  rw [outByte, outByte, outValid_congr b hr hc he hch, completes_congr b (portCommand_congr he hch), hch]

end Congruence

section Plan

section BitCommand
variable {v : Bool} (hi : portCommand x = bitCommand v)
include hi

theorem completes_bitCommand (b : Block) : completes b x = (b.cnt == 7) := by
  cases v <;> simp [completes, hi, mnemonic_bitCommand]

theorem flushes_bitCommand (b : Block) : flushes b x = false := by
  simp [flushes, hi, mnemonic_bitCommand_ne_END]

/-- A BIT command on the ports carries its bit as the low bit of the character (R84, R86). -/
theorem bit_of_portCommand : x.cmdChar.getLsbD 0 = v := by
  have ⟨_, hencode⟩ := wellFormed_decode_and_encode_decode (portWord x)
  have hw : portWord x = encode (bitCommand v) := by rw [← hi, portCommand, hencode]
  have hchar : x.cmdChar = fieldC (encode (bitCommand v)) := by rw [← hw, portWord, fieldC_formatC]
  rw [hchar]
  cases v <;> rfl

end BitCommand

section EndStream
variable {c : Byte} (hi : portCommand x = .endStream c)
include hi

theorem completes_endStream (b : Block) : completes b x = false := by
  simp [completes, hi, mnemonic]

theorem flushes_endStream (b : Block) : flushes b x = (b.cnt != 0) := by
  simp [flushes, hi, mnemonic]

end EndStream

/-- Where a byte is completed on the ports, `SHL1` of the bit presented is on offer (R204). -/
theorem outByte_completes (noise : Byte) (hv : outValid b x = true) (h : completes b x = true) :
    outByte noise b x = accShl1 b.acc (x.cmdChar.getLsbD 0) := by
  rw [outByte, hv, h]
  rfl

/-- Where the held bits are flushed, they are on offer, moved up to the top (R204). -/
theorem outByte_flushes (noise : Byte) (hv : outValid b x = true) (h : completes b x = false) :
    outByte noise b x = b.acc <<< (8 - b.cnt.toNat) := by
  rw [outByte, hv, h]
  rfl

/-- A BIT command that offers a byte on the ports has a plan that offers the same byte (R110, R111). -/
theorem bitPlan_of_outValid (noise : Byte) {v : Bool} (hi : portCommand x = bitCommand v) (hv : outValid b x = true) :
    ∃ b', bitPlan v b = .offer (outByte noise b x) b' := by
  obtain ⟨-, -, -, hoffers⟩ := outValid_iff.1 hv
  have hcompletes : completes b x = true := by simpa [flushes_bitCommand hi] using hoffers
  have h7 : b.cnt = 7 := by simpa [completes_bitCommand hi] using hcompletes
  rw [outByte_completes noise hv hcompletes, bit_of_portCommand hi]
  exact ⟨_, bitPlan_full v b h7⟩

/-- The byte on offer is the one the plan of the command offers (R110, R111, R130, R204). -/
theorem commandPlan_of_outValid (noise : Byte) (hv : outValid b x = true) :
    ∃ b', commandPlan (portCommand x) b = .offer (outByte noise b x) b' := by
  obtain ⟨-, -, -, hoffers⟩ := outValid_iff.1 hv
  cases hi : portCommand x with
  | bit0 => exact bitPlan_of_outValid noise (v := false) hi hv
  | bit1 => exact bitPlan_of_outValid noise (v := true) hi hv
  | skip => simp [completes, flushes, hi, mnemonic] at hoffers
  | endStream =>
    have h0 : b.cnt ≠ 0 := by simpa [completes_endStream hi, flushes_endStream hi] using hoffers
    rw [outByte_flushes noise hv (completes_endStream hi b)]
    exact ⟨_, endPlan_held b h0⟩

/-- In RUN, a command that needs no emission has a plan that offers no byte (R110 to R112, R130, R204). -/
theorem commandPlan_of_not_needEmit (hp : b.phase = .run) (hc : x.cmdValid = true) (hn : needEmit b x = false) :
    ∃ b', commandPlan (portCommand x) b = .settle b' := by
  have ⟨hcompletes, hflushes⟩ : completes b x = false ∧ flushes b x = false := by simpa [needEmit, hp, hc] using hn
  cases hi : portCommand x with
  | bit0 => exact ⟨_, bitPlan_hold false b (by simpa [completes_bitCommand (v := false) hi] using hcompletes)⟩
  | bit1 => exact ⟨_, bitPlan_hold true b (by simpa [completes_bitCommand (v := true) hi] using hcompletes)⟩
  | skip => exact ⟨b, rfl⟩
  | endStream => exact ⟨_, endPlan_empty b (by simpa [flushes_endStream hi] using hflushes)⟩

end Plan

/-- The command the ports present (R90, R204). -/
def cycleCommand (x : Inputs) : Option CommandWord := if x.cmdValid then some (portWord x) else none

/-- What the ports tell the block of the sink's answer (R204). -/
def cycleVerdict (x : Inputs) : Option Verdict :=
  if x.outReady then some (if x.outErr then .fail (portCause x) else .ok) else none

/-- A cycle that takes no command and offers no byte (R205). -/
theorem idle_turn (noise : Byte) (hr : x.rst = false) (hf : fire b x = false) (hv : outValid b x = false) :
    (⟨clockEdge b x, fire b x, if outValid b x then some (outByte noise b x) else none⟩ : Turn) = ⟨b, false, none⟩ := by
  simp [clockEdge_idle hr hf, hf, hv]

/-- An offer on the ports is the turn of an offering plan, with the answer the ports carry. -/
theorem planTurn_offer (noise : Byte) (hv : outValid b x = true) :
    planTurn (commandPlan (portCommand x) b) (cycleVerdict x) b =
      ⟨clockEdge b x, fire b x, some (outByte noise b x)⟩ := by
  obtain ⟨hr, -⟩ := outValid_iff.1 hv
  obtain ⟨b', hplan⟩ := commandPlan_of_outValid noise hv
  cases hready : x.outReady with
  | false =>
    have hf := fire_of_unanswered hv hready
    rw [clockEdge_idle hr hf, hf, hplan]
    simp [cycleVerdict, hready, planTurn]
  | true =>
    have hf := fire_of_outValid hv hready
    rw [clockEdge_fire hr hf, hf, hplan]
    cases herr : x.outErr <;> simp [cycleVerdict, hready, herr, planTurn, settlePlan]

/-- A command that needs no emission is the turn of a settling plan, whatever the sink says. -/
theorem planTurn_settle (hr : x.rst = false) (hp : b.phase = .run) (hc : x.cmdValid = true)
    (hn : needEmit b x = false) (answer : Option Verdict) :
    planTurn (commandPlan (portCommand x) b) answer b = ⟨clockEdge b x, fire b x, none⟩ := by
  have hf := fire_of_not_needEmit hr hp hc hn
  obtain ⟨b', hplan⟩ := commandPlan_of_not_needEmit hp hc hn
  rw [clockEdge_fire hr hf, hf, hplan, planTurn, settlePlan]

/-- One cycle of the ports is one turn of the block, with what the ports say of reset, command and answer (R37, R204). -/
theorem blockStep_cycle (noise : Byte) (b : Block) (x : Inputs) :
    blockStep x.rst (cycleCommand x) (cycleVerdict x) b =
      ⟨clockEdge b x, fire b x, if outValid b x then some (outByte noise b x) else none⟩ := by
  cases hr : x.rst with
  | true => simp [blockStep_reset, clockEdge_reset b hr, fire_reset b hr, outValid_reset b hr]
  | false =>
    cases hc : x.cmdValid with
    | false =>
      rw [idle_turn noise hr (fire_idle b hc) (outValid_idle b hc)]
      simp [cycleCommand, hc, blockStep_quiet]
    | true =>
      have hw : cycleCommand x = some (portWord x) := by simp [cycleCommand, hc]
      rw [hw]
      by_cases hp : b.phase = .run
      · rw [blockStep_run _ _ _ hp, ← portCommand]
        cases hn : needEmit b x with
        | false =>
          have hv : outValid b x = false := by simp [outValid, hn]
          rw [planTurn_settle hr hp hc hn, hv]
          rfl
        | true =>
          have hv : outValid b x = true := by simp [outValid, hn, hr]
          rw [planTurn_offer noise hv, hv]
          rfl
      · rw [idle_turn noise hr (fire_outside_run hp) (outValid_outside_run hp), blockStep_held _ _ _ hp]

end Ports

section CycleState
variable (landed : Bool) (x : Inputs) (s : State)

theorem hostResets_cycleState : hostResets (cycleState landed x s) = x.rst := rfl

theorem presented_cycleState : presented (cycleState landed x s) = cycleCommand x := by
  cases hc : x.cmdValid <;> simp [presented, cycleState, cycleCommand, hc]

theorem verdict_cycleState :
    (cycleState landed x s).answers.head?.map SinkAnswer.verdict = cycleVerdict x := by
  cases hready : x.outReady
  · simp [cycleState, portAnswers, cycleVerdict, hready]
  · cases herr : x.outErr <;> simp [cycleState, portAnswers, cycleVerdict, hready, herr, SinkAnswer.verdict]

/-- The byte offered is in OUT after a cycle whose sink answers, unless it refuses the byte and leaves it out (R58, U3). -/
theorem lands_cycleState :
    (cycleState landed x s).answers.head?.any SinkAnswer.lands = (x.outReady && !(x.outErr && !landed)) := by
  cases hready : x.outReady
  · simp [cycleState, portAnswers, hready]
  · cases herr : x.outErr <;> simp [cycleState, portAnswers, hready, herr, SinkAnswer.lands]

theorem tail_input_cycleState : (cycleState landed x s).input.tail = [] := by
  cases hc : x.cmdValid <;> simp [cycleState, hc]

end CycleState

/-- Settles O57: the turn of the block that a cycle is, part by part. -/
theorem clockEdgeIsTheBlocksOwnStep : Obligations.ClockEdgeIsTheBlocksOwnStep := by
  unfold Obligations.ClockEdgeIsTheBlocksOwnStep
  intro noise b x
  refine ⟨_, (blockStep_cycle noise b x).symm, rfl, rfl, ?_, fun v hv => ?_⟩
  · cases outValid b x <;> rfl
  · obtain ⟨-, e⟩ := Option.ite_none_right_eq_some.1 hv
    exact Option.some.inj e

/-- Settles O48: the step in the environment of a cycle is the block's own step, and the block's step is the cycle. -/
theorem cycleRefinesStep : Obligations.CycleRefinesStep := by
  unfold Obligations.CycleRefinesStep
  intro landed noise x s
  obtain ⟨u, t, hu, e, hblock, hpos, hinput, -, hout, -⟩ := stepIsTheBlocksOwnStep (cycleState landed x s)
  rw [hostResets_cycleState, presented_cycleState, verdict_cycleState] at hu
  obtain rfl := hu.trans (blockStep_cycle noise s.block x)
  refine ⟨t, e, hblock, hpos, ?_, ?_⟩
  · rw [hinput, tail_input_cycleState]
  · rw [hout, lands_cycleState]
    cases outValid s.block x <;> cases x.outReady <;> cases x.outErr && !landed <;> rfl

/-- Settles O26: outside RUN a command is held, the ports are silent, and a step is idle or a reset. -/
theorem nothingIsAcceptedOutsideRun : Obligations.NothingIsAcceptedOutsideRun := by
  unfold Obligations.NothingIsAcceptedOutsideRun
  intro s hp
  refine ⟨fun i => exec_held s i hp, fun x => ⟨cmdReady_outside_run hp, outValid_outside_run hp⟩,
    fun hr k => run_held k hr hp, fun r hr => ?_⟩
  exact ⟨_, step_reset s (hostResets_cons hr), rfl, rfl⟩

/-- Settles O51: an unanswered offer does not fire, and `out_valid` and `out_byte` read only what the source keeps. -/
theorem offerIsHeldUntilAnswered : Obligations.OfferIsHeldUntilAnswered := by
  unfold Obligations.OfferIsHeldUntilAnswered
  intro noise b x y hv hready hy hkeep
  obtain ⟨hx, -, hcx, -⟩ := outValid_iff.1 hv
  have hf : fire b x = false := fire_of_unanswered hv hready
  obtain ⟨hcy, he, hch⟩ := hkeep hcx hf
  have hr : y.rst = x.rst := hy.trans hx.symm
  have hc : y.cmdValid = x.cmdValid := hcy.trans hcx.symm
  exact ⟨clockEdge_idle hx hf, (outValid_congr b hr hc he hch).trans hv, outByte_congr noise b hr hc he hch⟩

/-- Settles O49: what a firing emission needs, and that an answered offer fires. -/
theorem emissionAndCommandHandshakeTogether : Obligations.EmissionAndCommandHandshakeTogether := by
  unfold Obligations.EmissionAndCommandHandshakeTogether
  exact fun b x => ⟨offer_answered_of_fire, fun hv hready _ => fire_of_outValid hv hready⟩

/-- Settles O50: each port and the edge under reset, and the edge once more. -/
theorem resetSilencesThePorts : Obligations.ResetSilencesThePorts := by
  unfold Obligations.ResetSilencesThePorts
  intro b x hr
  refine ⟨cmdReady_reset b hr, outValid_reset b hr, clockEdge_reset b hr, ?_⟩
  rw [clockEdge_reset _ hr, clockEdge_reset b hr]

/-- Settles O52: the two inputs differ in the sink's ports alone. -/
theorem offerDoesNotDependOnTheAnswer : Obligations.OfferDoesNotDependOnTheAnswer := by
  unfold Obligations.OfferDoesNotDependOnTheAnswer
  exact fun noise b x r e c => ⟨outValid_congr b rfl rfl rfl rfl, outByte_congr noise b rfl rfl rfl rfl⟩

end Sys2Proof.Machine
end
